-- ==== Sys2Proof/Word.lean ====
section
/-! DEFINITION. Word.lean: the unsigned words of the block (R6, R11, R12 of 00_scope.md).
The block has no signed quantity. Arithmetic on a 32-bit word wraps modulo 2^32 (R12). -/
namespace Sys2Proof

/-- u8: a character of the HEX text, a record byte, an image byte. -/
abbrev Byte := BitVec 8

/-- u16: a record address. -/
abbrev Word16 := BitVec 16

/-- u32: a bias, an effective address, a result register. -/
abbrev Word32 := BitVec 32

end Sys2Proof
end

