-- ==== Sys2Proof/Config.lean ====
section
/-! DEFINITION. Config.lean: the block's fixed parameters (R7 to R9 of 00_scope.md) and the two closed
choices a particular block or call is set to. No value is left free here: the one open parameter,
LONG_LINE_POLICY, is a field of State (assumption log 1). -/
namespace Sys2Proof

/-- `LINE_MAX`: the most characters a line may hold before its terminator (R7). -/
def lineMax : Nat := 511

/-- `HDR_MIN`: the least length, terminator included, of an eligible line (R8, R143). -/
def hdrMin : Nat := 9

/-- The address-width profile of a call (R9, R24). No rule of the block reads it. -/
inductive Variant where
  | plain
  | segmented
  | linear
deriving DecidableEq, Repr

/-- `MaxAddress` of a variant (R9). The parsing block never checks it (R71, R182). -/
def variantMaxAddress : Variant → Word32
  | .plain => 0x0000FFFF#32
  | .segmented => 0x000FFFFF#32
  | .linear => 0xFFFFFFFF#32

/-- `LONG_LINE_POLICY` (R141): what the block does with a line longer than `lineMax`. -/
inductive LongLinePolicy where
  | split
  | fault
deriving DecidableEq, Repr

end Sys2Proof
end

