-- ==== Sys2Proof/Machine/State.lean ====
section
/-! DEFINITION. Machine/State.lean: every piece of state the spec gives the block (10_state.md, 20_memory.md),
the host's side as plain data (10_state.md section 8, 70_reset_and_hazards.md section 2), the reasons to stop,
and the state right after reset (R47, R270, R271). -/
namespace Sys2Proof.Machine

/-- `phase` (R21). -/
inductive Phase where
  | idle
  | scan
  | alloc
  | decode
  | done
  | error
deriving DecidableEq, Repr

/-- `call` (R22): which entry point the host invoked. -/
inductive Call where
  | none
  | scanCall
  | decodeCall
deriving DecidableEq, Repr

/-- The error kinds (R240). -/
inductive ErrKind where
  | none
  | addressTooLarge
  | ioError
  | badHexData
  | unknownRecordType
  | badChecksum
  | entryAddressTooLarge
  | bufferBound
deriving DecidableEq, Repr

/-- The values of the command port's `cmd` field (R41). -/
inductive Cmd where
  | nop
  | reset
  | scan
  | decode
deriving DecidableEq, Repr

/-- The command port (R41): `cmd`, `cmd_variant`, `cmd_ignore_cs`. -/
structure CommandPort where
  cmd : Cmd
  variant : Variant
  ignoreCs : Bool
deriving DecidableEq, Repr

/-- The host's answer to `Alloc(n)` (R44), or that none ever comes (R276). -/
inductive AllocAnswer where
  | ok
  | fail
  | silent
deriving DecidableEq, Repr

/-- The HEX text as the host delivers it (R42, R60). In a pass, the read of the byte at stream position `p`
returns `Err` if the pass's position of failure is `p`; it is never answered if the pass's position of silence is `p`
(R276); else it returns the byte at `p`, else `End` (log 3, log 4). -/
structure HostInput where
  bytes : List Byte
  /-- What follows `bytes`, over and over: an input that never returns `End` (R276). Empty: `End` follows. -/
  cycle : List Byte := []
  /-- The stream position at which a read of the scan pass fails. -/
  scanErrAt : Option Nat
  /-- The stream position at which a read of the decode pass fails. -/
  decodeErrAt : Option Nat
  /-- The stream position at which a read of the scan pass is never answered. -/
  scanHoldAt : Option Nat := none
  /-- The stream position at which a read of the decode pass is never answered. -/
  decodeHoldAt : Option Nat := none
deriving DecidableEq, Repr

/-- One move of the host between two block steps (log 2). -/
inductive HostMove where
  /-- Drive the command port for one transaction. -/
  | issue (p : CommandPort)
  /-- Issue nothing and let the block take one step. -/
  | idle
  /-- Position an input at its first byte (R278, step 1) and settle how the next `Alloc` is answered. -/
  | present (input : HostInput) (answer : AllocAnswer)
deriving DecidableEq, Repr

/-- The host's side (R41 to R44): what the block's ports will meet. -/
structure HostSide where
  /-- The moves still to come, the next one first. -/
  moves : List HostMove
  input : HostInput
  /-- The answer the host gives to `Alloc` (R44). -/
  allocAnswer : AllocAnswer
deriving DecidableEq, Repr

/-- The image buffer's written bytes (R63, R64): offsets strictly rising. An offset that is not listed
reads as no value (R66; log 6). -/
abbrev Memory := List Host.Cell

/-- The block's registers (R21 to R34), its image buffer (R63), the open parameter (R141) and the host's
side. -/
structure State where
  phase : Phase
  call : Call
  ignoreCs : Bool
  variant : Variant
  segBias : Word32
  linBias : Word32
  minAddr : Word32
  maxAddr : Word32
  totalSize : Word32
  entryAddr : Word32
  baseAddr : Word32
  /-- A natural number in 0 .. 2^32 (R32). -/
  bufSize : Nat
  /-- The input cursor, the block's program counter, unbounded (R33, R48). -/
  inPos : Nat
  err : ErrKind
  /-- Whether the call holds an image buffer (R63; R47 "none allocated"). -/
  bufGranted : Bool
  /-- The bytes the block has written to the image buffer. -/
  image : Memory
  /-- `LONG_LINE_POLICY`, a parameter that nothing writes (R141; log 1). -/
  longLinePolicy : LongLinePolicy
  host : HostSide
deriving DecidableEq, Repr

/-- Why reading the image stops. The spec's own errors are not here: they are next states (R245).
No step raises one of these; `readImage` does, for the host's read of the result (R278, step 7). -/
inductive Fault where
  /-- Raised by `readImage` in any phase but DONE: the image is no result there (R74, R275; log 15). Safe. -/
  | notResult
  /-- Raised by `readImage` on an offset no Data record wrote: it holds no value (R66). Safe. -/
  | gapByte
  /-- Raised by `readImage` on an offset outside the granted buffer (R63, R71). Safe. -/
  | outsideBuffer
deriving DecidableEq, Repr

/-- Why an instruction has no meaning. -/
inductive Refusal where
  /-- Raised by an arm of `exec` whose instruction has no meaning yet. No arm raises it. Safe. -/
  | notModelled (mnemonic : String)
deriving DecidableEq, Repr

/-- The host's side with no move to come and an empty input (log 12). -/
def HostSide.quiet : HostSide :=
  { moves := []
    input := { bytes := [], cycle := [], scanErrAt := none, decodeErrAt := none, scanHoldAt := none,
               decodeHoldAt := none }
    allocAnswer := .ok }

/-- The state after reset and at power-on: the table of R47 (R270, R271). The values of `longLinePolicy`
and of the host's side are the model's choices (log 1, log 12). -/
def State.reset : State where
  phase := .idle
  call := .none
  ignoreCs := false
  variant := .plain
  segBias := 0x00000000#32
  linBias := 0x00000000#32
  minAddr := 0xFFFFFFFF#32
  maxAddr := 0x00000000#32
  totalSize := 0x00000000#32
  entryAddr := 0x00000000#32
  baseAddr := 0x00000000#32
  bufSize := 0
  inPos := 0
  err := .none
  bufGranted := false
  image := []
  longLinePolicy := .split
  host := HostSide.quiet

end Sys2Proof.Machine
end

