-- ==== Sys2Proof/Machine/Flags.lean ====
section
/-! DEFINITION. Machine/Flags.lean: the status levels computed from the registers (R37), the error codes
(R240) and the checksum (41_record_layer.md section 5). -/
namespace Sys2Proof.Machine

/-! ### Status levels (R37) -/

/-- `busy`: a call is in progress. -/
def busy (s : State) : Bool := s.phase == .scan || s.phase == .alloc || s.phase == .decode

/-- `done`: the last call ended without error. -/
def done (s : State) : Bool := s.phase == .done

/-- `error`: the last call ended with the error in `err`. -/
def error (s : State) : Bool := s.phase == .error

/-- `empty`: both scan fields are at the sentinel (R37, R211). -/
def empty (s : State) : Bool := s.minAddr == 0xFFFFFFFF#32 && s.maxAddr == 0x00000000#32

/-! ### Error codes (R240) -/

/-- The 4-bit code of an error kind. -/
def errCode : ErrKind → BitVec 4
  | .none => 0#4
  | .addressTooLarge => 1#4
  | .ioError => 2#4
  | .badHexData => 3#4
  | .unknownRecordType => 4#4
  | .badChecksum => 5#4
  | .entryAddressTooLarge => 6#4
  | .bufferBound => 7#4

/-! ### Checksum (R150, R152) -/

/-- The exact sum of bytes, before any reduction. -/
def byteSum (bytes : List Byte) : Nat := (bytes.map BitVec.toNat).sum

/-- The bytes that the checksum covers: the `5 + byteCount` bytes from the byteCount to the checksum, both
included (R150). Bytes after them are not summed (R149). -/
def coveredBytes (rec : List Byte) : List Byte := rec.take (5 + (rec.headD 0#8).toNat)

/-- R150: the covered bytes sum to 0 modulo 256. -/
def verifyChecksum (rec : List Byte) : Bool := byteSum (coveredBytes rec) % 256 == 0

/-- R152: the two's complement of the running sum. -/
def computeChecksum (bytes : List Byte) : Byte := BitVec.ofNat 8 ((256 - byteSum bytes % 256) % 256)

end Sys2Proof.Machine
end

