-- ==== Sys2Proof/Syntax.lean ====
section
/-! DEFINITION. Syntax.lean: the instructions, one constructor for each row of spec/opcode_table.json.
An instruction is one HEX record; its opcode is the whole type byte `rec[3]` (R95 of 30_encoding.md). -/
namespace Sys2Proof

/-- The fields of a record beside its type byte (R92, R93). The byteCount is the number of data bytes,
so it is not stored a second time. -/
structure Record where
  /-- `rec[1..2]`, big-endian. -/
  address : Word16
  /-- `data[0 .. byteCount)`. -/
  data : List Byte
  /-- `rec[4 + byteCount]`. -/
  checksum : Byte
deriving DecidableEq, Repr

/-- byteCount as a natural number (R10: 0 to 255 in a well-formed record). -/
def Record.count (r : Record) : Nat := r.data.length

/-- The record types (R95) and, by rows, the reserved type bytes 0x06 to 0xFF (R96), which carry the
type byte itself. -/
inductive Instr where
  /-- 0x00, Data (R171, R172). -/
  | data (r : Record)
  /-- 0x01, EndOfFile (R173). -/
  | eof (r : Record)
  /-- 0x02, ExtendedSegmentAddress (R174, R179). -/
  | esa (r : Record)
  /-- 0x03, StartAddress (R175). -/
  | sa (r : Record)
  /-- 0x04, ExtendedLinearAddress (R176, R179). -/
  | ela (r : Record)
  /-- 0x05, StartLinearAddress (R177). -/
  | sla (r : Record)
  /-- 0x06 to 0x07, reserved (R178). -/
  | unknown06_07 (ty : Byte) (r : Record)
  /-- 0x08 to 0x0F, reserved (R178). -/
  | unknown08_0F (ty : Byte) (r : Record)
  /-- 0x10 to 0x1F, reserved (R178). -/
  | unknown10_1F (ty : Byte) (r : Record)
  /-- 0x20 to 0x3F, reserved (R178). -/
  | unknown20_3F (ty : Byte) (r : Record)
  /-- 0x40 to 0x7F, reserved (R178). -/
  | unknown40_7F (ty : Byte) (r : Record)
  /-- 0x80 to 0xFF, reserved (R178). -/
  | unknown80_FF (ty : Byte) (r : Record)
deriving DecidableEq, Repr

end Sys2Proof
end

