-- ==== Sys2Proof/Machine/Operands.lean ====
section
/-! DEFINITION. Machine/Operands.lean: the operand forms: the effective address of a Data record (R170), the
operands of the extension records (R97, R98), and the scan pass's maximum candidate (R171). -/
namespace Sys2Proof.Machine

/-- R170: the record address plus both biases, modulo 2^32. -/
def effectiveAddress (address : Word16) (s : State) : Word32 :=
  address.setWidth 32 + s.segBias + s.linBias

/-- R97, R174: the 16-bit big-endian value of the two bytes, shifted left by 4. -/
def segmentBiasOf (d0 d1 : Byte) : Word32 := (d0.setWidth 32 <<< 12) ||| (d1.setWidth 32 <<< 4)

/-- R98, R176: the 16-bit big-endian value of the two bytes, shifted left by 16. -/
def linearBiasOf (d0 d1 : Byte) : Word32 := (d0.setWidth 32 <<< 24) ||| (d1.setWidth 32 <<< 16)

/-- byteCount as a 32-bit word. -/
def countWord (r : Record) : Word32 := BitVec.ofNat 32 r.count

/-- R171: the candidate for `max_addr`, `E +32 bc -32 1`. -/
def maxCandidate (ea : Word32) (r : Record) : Word32 := ea + countWord r - 1#32

/-- Unsigned minimum of two words (R171). -/
def wordMin (a b : Word32) : Word32 := if b.toNat < a.toNat then b else a

/-- Unsigned maximum of two words (R171). -/
def wordMax (a b : Word32) : Word32 := if a.toNat < b.toNat then b else a

end Sys2Proof.Machine
end

