-- ==== Sys2Proof/Machine/Ops.lean ====
section
/-! DEFINITION. Machine/Ops.lean: the named operations over the image buffer and the registers, taking an
error (R245), leaving it (R202, R270), and the start and the end of a pass (43_pass_control.md). -/
namespace Sys2Proof.Machine

/-! ### The image buffer (R63 to R66, R69) -/

/-- The canonical form: offsets strictly rising. An unlisted offset reads as no value, so no entry equals
what an unlisted offset reads as. -/
abbrev Memory.wf (m : Memory) : Prop := m.Pairwise (fun a b => a.1 < b.1)

/-- What the image holds at an offset: the byte last written there, or no value (R66). -/
def Memory.read (m : Memory) (off : Nat) : Option Byte :=
  match m with
  | [] => none
  | c :: rest => if c.1 = off then some c.2 else Memory.read rest off

/-- Store one byte, keeping the offsets rising. -/
def Memory.write (m : Memory) (off : Nat) (b : Byte) : Memory :=
  match m with
  | [] => [(off, b)]
  | c :: rest =>
    if off < c.1 then (off, b) :: c :: rest
    else if c.1 = off then (off, b) :: rest
    else c :: Memory.write rest off b

/-- `ImgWrite(off + i, d[i])` for every `i`, in ascending order (R69, R172). -/
def Memory.writeBytes (m : Memory) (off : Nat) : List Byte → Memory
  | [] => m
  | b :: bs => Memory.writeBytes (Memory.write m off b) (off + 1) bs

/-- The host's read of one byte of a call's image (R63, R66, R278 step 7). The image is a result only in DONE, and in
ALLOC and DECODE the host must not read it (R74, R275). That a read in any other phase stops by name is the model's
choice (log 15), and so is that a gap does (log 6). -/
def readImage (s : State) (off : Nat) : Except Fault Byte :=
  if s.phase ≠ .done then .error .notResult
  else if s.bufGranted = true ∧ off < s.bufSize then
    match Memory.read s.image off with
    | some b => .ok b
    | none => .error .gapByte
  else .error .outsideBuffer

/-! ### Errors (R245, R251) -/

/-- R245, `raise E`: `err` and `phase` change, nothing else does. -/
def raise (e : ErrKind) (s : State) : State := { s with err := e, phase := .error }

/-- What a malformed line or record does (R141, R147, R179): the decode pass raises BadHexData, the scan pass
goes on as if the line were skipped. -/
def malformed (s : State) : State := if s.phase = .decode then raise .badHexData s else s

/-- R202, `CallStart()`: the call's results, `err`, and no image buffer yet (R63; log 7). -/
def callStart (s : State) : State :=
  { s with
    minAddr := 0xFFFFFFFF#32, maxAddr := 0x00000000#32, totalSize := 0x00000000#32
    entryAddr := 0x00000000#32, baseAddr := 0x00000000#32, bufSize := 0, err := .none
    bufGranted := false, image := [] }

/-- R203, `PassStart()`: the input from its first byte, both biases neutral. -/
def passStart (s : State) : State :=
  { s with inPos := 0, segBias := 0x00000000#32, linBias := 0x00000000#32 }

/-- R270, `RESET`: every register at its reset value. What is no register stays: the open parameter and the
host's side. -/
def resetBlock (s : State) : State :=
  { State.reset with longLinePolicy := s.longLinePolicy, host := s.host }

/-! ### The end of a pass (R207, R218) -/

/-- R218, `DecodeEnd()`. -/
def decodeEnd (s : State) : State := { s with baseAddr := s.minAddr, phase := .done }

/-- R207, `end pass`. Where no clause of R207 applies nothing changes (log 9). -/
def endPass (s : State) : State :=
  match s.phase, s.call with
  | .scan, .scanCall => { s with phase := .done }
  | .scan, .decodeCall => { s with phase := .alloc }
  | .decode, _ => decodeEnd s
  | _, _ => s

end Sys2Proof.Machine
end

