-- ==== Sys2Proof/Machine/Control.lean ====
section
/-! DEFINITION. Machine/Control.lean: the EndOfFile record (R173) and the start-address records (R175, R177). -/
namespace Sys2Proof.Machine

/-- EOF, 0x01 (R173): `end pass`. Its byteCount, address and data are not looked at (R182). -/
def execEof (_r : Record) (s : State) : Host.Outcome State Fault Refusal := .next (endPass s)

/-- SA, 0x03 (R175): no operation, whatever the data. -/
def execSa (_r : Record) (s : State) : Host.Outcome State Fault Refusal := .next s

/-- SLA, 0x05 (R177): no operation, whatever the data. -/
def execSla (_r : Record) (s : State) : Host.Outcome State Fault Refusal := .next s

end Sys2Proof.Machine
end

