-- ==== Sys2Proof/Machine/Data.lean ====
section
/-! DEFINITION. Machine/Data.lean: the meaning of a Data record (R171, R172 of 42_record_dispatch.md). -/
namespace Sys2Proof.Machine

/-- R171: the scan pass lowers `min_addr`, raises `max_addr` and adds to `total_size`, each modulo 2^32. -/
def scanData (r : Record) (s : State) : State :=
  let ea := effectiveAddress r.address s
  { s with
    minAddr := wordMin s.minAddr ea
    maxAddr := wordMax s.maxAddr (maxCandidate ea r)
    totalSize := s.totalSize + countWord r }

/-- The buffer offset of a Data record, where its placement is inside the buffer (R172): both bound checks,
on unbounded integers. -/
def dataOffset (r : Record) (s : State) : Option Nat :=
  let ea := effectiveAddress r.address s
  if ea.toNat < s.minAddr.toNat then none
  else if s.bufSize < (ea.toNat - s.minAddr.toNat) + r.count then none
  else some (ea.toNat - s.minAddr.toNat)

/-- R172: the decode pass checks the placement, then writes the data bytes in ascending order. -/
def placeData (r : Record) (s : State) : State :=
  match dataOffset r s with
  | none => raise .bufferBound s
  | some off => { s with image := Memory.writeBytes s.image off r.data }

/-- DATA, 0x00 (R180: `if phase = SCAN then R171 else R172`). -/
def execData (r : Record) (s : State) : Host.Outcome State Fault Refusal :=
  if s.phase = .scan then .next (scanData r s) else .next (placeData r s)

end Sys2Proof.Machine
end

