-- ==== Sys2Proof/Machine/Extension.lean ====
section
/-! DEFINITION. Machine/Extension.lean: the extension records, which set a bias (R174, R176, R181), and their
short forms (R179). -/
namespace Sys2Proof.Machine

/-- ESA, 0x02 (R174): `seg_bias` only. With byteCount below 2, R179. -/
def execEsa (r : Record) (s : State) : Host.Outcome State Fault Refusal :=
  match r.data with
  | d0 :: d1 :: _ => .next { s with segBias := segmentBiasOf d0 d1 }
  | _ => .next (malformed s)

/-- ELA, 0x04 (R176): `lin_bias` only. With byteCount below 2, R179. -/
def execEla (r : Record) (s : State) : Host.Outcome State Fault Refusal :=
  match r.data with
  | d0 :: d1 :: _ => .next { s with linBias := linearBiasOf d0 d1 }
  | _ => .next (malformed s)

end Sys2Proof.Machine
end

