-- ==== Sys2Proof/Machine/Unknown.lean ====
section
/-! DEFINITION. Machine/Unknown.lean: the reserved type bytes, one meaning for each row of the opcode table. Each
raises UnknownRecordType in both passes, and `ignore_cs` has no effect on it (R178, R244). -/
namespace Sys2Proof.Machine

/-- The shared effect (R178). -/
def unknownType (s : State) : State := raise .unknownRecordType s

/-- Types 0x06 to 0x07 (R178). -/
def execUnknown06_07 (_ty : Byte) (_r : Record) (s : State) : Host.Outcome State Fault Refusal :=
  .next (unknownType s)

/-- Types 0x08 to 0x0F (R178). -/
def execUnknown08_0F (_ty : Byte) (_r : Record) (s : State) : Host.Outcome State Fault Refusal :=
  .next (unknownType s)

/-- Types 0x10 to 0x1F (R178). -/
def execUnknown10_1F (_ty : Byte) (_r : Record) (s : State) : Host.Outcome State Fault Refusal :=
  .next (unknownType s)

/-- Types 0x20 to 0x3F (R178). -/
def execUnknown20_3F (_ty : Byte) (_r : Record) (s : State) : Host.Outcome State Fault Refusal :=
  .next (unknownType s)

/-- Types 0x40 to 0x7F (R178). -/
def execUnknown40_7F (_ty : Byte) (_r : Record) (s : State) : Host.Outcome State Fault Refusal :=
  .next (unknownType s)

/-- Types 0x80 to 0xFF (R178). -/
def execUnknown80_FF (_ty : Byte) (_r : Record) (s : State) : Host.Outcome State Fault Refusal :=
  .next (unknownType s)

end Sys2Proof.Machine
end

