-- ==== Sys2Proof/Machine/Dispatch.lean ====
section
/-! DEFINITION. Machine/Dispatch.lean: R180, the record-type dispatcher, one arm for each constructor. -/
namespace Sys2Proof.Machine

/-- R180: `Dispatch(rec)`. -/
def exec (i : Instr) (s : State) : Host.Outcome State Fault Refusal :=
  match i with
  | .data r => Sys2Proof.Machine.execData r s
  | .eof r => Sys2Proof.Machine.execEof r s
  | .esa r => Sys2Proof.Machine.execEsa r s
  | .sa r => Sys2Proof.Machine.execSa r s
  | .ela r => Sys2Proof.Machine.execEla r s
  | .sla r => Sys2Proof.Machine.execSla r s
  | .unknown06_07 ty r => Sys2Proof.Machine.execUnknown06_07 ty r s
  | .unknown08_0F ty r => Sys2Proof.Machine.execUnknown08_0F ty r s
  | .unknown10_1F ty r => Sys2Proof.Machine.execUnknown10_1F ty r s
  | .unknown20_3F ty r => Sys2Proof.Machine.execUnknown20_3F ty r s
  | .unknown40_7F ty r => Sys2Proof.Machine.execUnknown40_7F ty r s
  | .unknown80_FF ty r => Sys2Proof.Machine.execUnknown80_FF ty r s

end Sys2Proof.Machine
end

