-- ==== Sys2Proof/WellFormed.lean ====
section
/-! DEFINITION. WellFormed.lean: the terms of Instr that stand for a record: the byteCount fits its byte
(R6, R10 of 00_scope.md) and a reserved type byte lies in its row of spec/opcode_table.json (R95, R96). -/
namespace Sys2Proof

/-- The byteCount field can encode 0 to 255 (R10). -/
def Record.wellFormed (r : Record) : Bool := decide (r.count ≤ 255)

/-- The type byte meets a row's match under the row's mask. -/
def rowHolds (mask pattern ty : Byte) : Bool := ty &&& mask == pattern

/-- An instruction that some record's bytes stand for. -/
def Instr.wellFormed : Instr → Bool
  | .data r => r.wellFormed
  | .eof r => r.wellFormed
  | .esa r => r.wellFormed
  | .sa r => r.wellFormed
  | .ela r => r.wellFormed
  | .sla r => r.wellFormed
  | .unknown06_07 ty r => rowHolds 0xFE#8 0x06#8 ty && r.wellFormed
  | .unknown08_0F ty r => rowHolds 0xF8#8 0x08#8 ty && r.wellFormed
  | .unknown10_1F ty r => rowHolds 0xF0#8 0x10#8 ty && r.wellFormed
  | .unknown20_3F ty r => rowHolds 0xE0#8 0x20#8 ty && r.wellFormed
  | .unknown40_7F ty r => rowHolds 0xC0#8 0x40#8 ty && r.wellFormed
  | .unknown80_FF ty r => rowHolds 0x80#8 0x80#8 ty && r.wellFormed

end Sys2Proof
end

