-- ==== Sys2Proof/Decode.lean ====
section
/-! DEFINITION. Decode.lean: from the characters of a line to an instruction, and back.
The nibble codec (40_nibble_codec.md), a line's payload and pairs (41_record_layer.md sections 2 and 3), the
binary record (30_encoding.md section 2), the record-type map (30_encoding.md section 3), then the encoder. -/
namespace Sys2Proof

/-! ### Characters (R14) -/

/-- `:` starts a record line. -/
def chColon : Byte := 0x3A#8
/-- LF ends a line (R91). -/
def chLF : Byte := 0x0A#8
/-- CR ends a payload (R144). -/
def chCR : Byte := 0x0D#8

/-! ### The nibble codec (R120 to R124) -/

/-- R120: the value of a hex character, and 0 for every other byte. There is no domain check (R121). -/
def hexToNibble (c : Byte) : Byte :=
  if 0x30 ≤ c.toNat ∧ c.toNat ≤ 0x39 then c - 0x30#8
  else if 0x41 ≤ c.toNat ∧ c.toNat ≤ 0x46 then c - 0x37#8
  else if 0x61 ≤ c.toNat ∧ c.toNat ≤ 0x66 then c - 0x57#8
  else 0#8

/-- R122: the uppercase hex digit of the low nibble. -/
def nibbleToHex (n : Byte) : Byte :=
  let m := n &&& 0x0F#8
  if m.toNat ≤ 9 then 0x30#8 + m else 0x41#8 + (m - 10#8)

/-- R123: the first character of a pair is the high nibble. -/
def decodeByte (c0 c1 : Byte) : Byte := (hexToNibble c0 <<< 4) ||| hexToNibble c1

/-- R124: the two characters of a byte, high nibble first. -/
def encodeByte (b : Byte) : List Byte := [nibbleToHex (b >>> 4), nibbleToHex (b &&& 0x0F#8)]

/-! ### A line's payload and pairs (R143 to R146) -/

/-- R143: `len(L) >= HDR_MIN` and `L[0] = ':'`. -/
def eligible (line : List Byte) : Bool :=
  decide (hdrMin ≤ line.length) && line.head? == some chColon

/-- CR or LF: where a payload stops. -/
def isTerminator (c : Byte) : Bool := c == chCR || c == chLF

/-- R144: the characters after the first one, up to the first CR or LF. -/
def payload (line : List Byte) : List Byte := (line.drop 1).takeWhile (fun c => !isTerminator c)

/-- R146: the bytes of the pairs; a final odd character is ignored (R149). -/
def pairs : List Byte → List Byte
  | c0 :: c1 :: rest => decodeByte c0 c1 :: pairs rest
  | [_] => []
  | [] => []

/-- The record bytes `rec` of a line. -/
def lineRec (line : List Byte) : List Byte := pairs (payload line)

/-! ### The binary record (R92 to R95) -/

/-- Why a line gives no instruction. -/
inductive DecodeError where
  /-- The line is not a record (R143): it is skipped in both passes. -/
  | notEligible
  /-- The pairs do not cover header, byteCount and checksum (R147). -/
  | tooShort
deriving DecidableEq, Repr

/-- R67 (b): the first byte is the more significant one. -/
def bigEndian16 (hi lo : Byte) : Word16 := (hi.setWidth 16 <<< 8) ||| lo.setWidth 16

/-- R95, R96: the record-type map, all 8 bits compared. -/
def instrOfType (ty : Byte) (r : Record) : Instr :=
  if ty = 0x00#8 then .data r
  else if ty = 0x01#8 then .eof r
  else if ty = 0x02#8 then .esa r
  else if ty = 0x03#8 then .sa r
  else if ty = 0x04#8 then .ela r
  else if ty = 0x05#8 then .sla r
  else if rowHolds 0xFE#8 0x06#8 ty then .unknown06_07 ty r
  else if rowHolds 0xF8#8 0x08#8 ty then .unknown08_0F ty r
  else if rowHolds 0xF0#8 0x10#8 ty then .unknown10_1F ty r
  else if rowHolds 0xE0#8 0x20#8 ty then .unknown20_3F ty r
  else if rowHolds 0xC0#8 0x40#8 ty then .unknown40_7F ty r
  else .unknown80_FF ty r

/-- The record decoder, total on any bytes. `rest` is what follows the type byte: it must hold the data
and the checksum (R147, `n >= 5 + rec[0]`). Bytes after the checksum are ignored (R149). -/
def decodeRec : List Byte → Except DecodeError Instr
  | bc :: a1 :: a0 :: ty :: rest =>
    if bc.toNat + 1 ≤ rest.length then
      .ok (instrOfType ty
        { address := bigEndian16 a1 a0, data := rest.take bc.toNat, checksum := rest.getD bc.toNat 0#8 })
    else .error .tooShort
  | _ => .error .tooShort

/-- The line decoder: eligibility (R143), payload (R144), pairs (R146), length check (R147), fields and
type (R93, R95). -/
def decodeLine (line : List Byte) : Except DecodeError Instr :=
  if eligible line then decodeRec (lineRec line) else .error .notEligible

/-! ### The encoder -/

/-- The record of an instruction. -/
def Instr.record : Instr → Record
  | .data r | .eof r | .esa r | .sa r | .ela r | .sla r => r
  | .unknown06_07 _ r | .unknown08_0F _ r | .unknown10_1F _ r => r
  | .unknown20_3F _ r | .unknown40_7F _ r | .unknown80_FF _ r => r

/-- The type byte of an instruction (R95). -/
def Instr.typeByte : Instr → Byte
  | .data _ => 0x00#8
  | .eof _ => 0x01#8
  | .esa _ => 0x02#8
  | .sa _ => 0x03#8
  | .ela _ => 0x04#8
  | .sla _ => 0x05#8
  | .unknown06_07 ty _ | .unknown08_0F ty _ | .unknown10_1F ty _ => ty
  | .unknown20_3F ty _ | .unknown40_7F ty _ | .unknown80_FF ty _ => ty

/-- The binary record (R92): byteCount, address high then low, type, data, checksum. -/
def encodeRec (i : Instr) : List Byte :=
  BitVec.ofNat 8 i.record.count :: (i.record.address >>> 8).setWidth 8 :: i.record.address.setWidth 8 ::
    i.typeByte :: (i.record.data ++ [i.record.checksum])

/-- The characters of record bytes, two for each byte (R90). -/
def hexText : List Byte → List Byte
  | [] => []
  | b :: bs => encodeByte b ++ hexText bs

/-- The text line of record bytes: start code, hex characters, LF (R90, R91). -/
def lineText (rec : List Byte) : List Byte := chColon :: (hexText rec ++ [chLF])

/-- The text line of an instruction (R90, R103). -/
def encode (i : Instr) : List Byte := lineText (encodeRec i)

/-! ### Words numbered as spec/opcode_table.json numbers them -/

/-- Byte `k` of a word, byte 0 the least significant. -/
def wordByte (w k : Nat) : Byte := BitVec.ofNat 8 (w / 256 ^ k)

/-- The record bytes of a table word. The table's bits 7..0 are the type byte; the bits above it, which
the table gives no row, are the record's other bytes in record order: byteCount, address, data, checksum
(assumption log 10). Bits from `nbits` up are 0. -/
def tableWordRec (nbits w : Nat) : List Byte :=
  let v := w % 2 ^ nbits
  wordByte v 1 :: wordByte v 2 :: wordByte v 3 :: wordByte v 0 ::
    (List.range ((wordByte v 1).toNat + 1)).map (fun j => wordByte v (4 + j))

/-- The text line the hardware reads for a table word. -/
def tableWordText (nbits w : Nat) : List Byte := lineText (tableWordRec nbits w)

/-- What the decoder reads from an instruction whose bits are `w`. -/
def decodeTableWord (nbits w : Nat) : Option Instr :=
  match decodeLine (tableWordText nbits w) with
  | .ok i => some i
  | .error _ => none

end Sys2Proof
end

