-- ==== Sys2Proof/Machine/Framing.lean ====
section
/-! DEFINITION. Machine/Framing.lean: the input port (R42) and `FrameLine()` (R140, R141 of 41_record_layer.md). -/
namespace Sys2Proof.Machine

/-- What `FrameLine()` answers (R140), or that it has not returned. -/
inductive Frame where
  | line (bytes : List Byte)
  | tooLong (bytes : List Byte)
  | endOfInput
  | readError
  /-- A read is not answered, or the line goes on without end (R276): the block still waits or reads. -/
  | waiting
deriving DecidableEq, Repr

/-- Whether the byte before the last one is a CR: the CR of a line that ends in LF (R140). -/
def crBeforeLast (line : List Byte) : Bool := (line.dropLast.getLast?) == some chCR

/-- R140, `content_len` of a line that ends in LF: its bytes but for the LF and one CR just before it. -/
def contentLen (line : List Byte) : Nat :=
  line.length - 1 - (if crBeforeLast line then 1 else 0)

/-- Whether a line that ends in LF is overlong under FAULT (R140, R141). -/
def overlong (policy : LongLinePolicy) (line : List Byte) : Bool :=
  decide (lineMax < contentLen line) && policy == .fault

/-- Whether a final line without LF is overlong under FAULT: every byte is content (R140; log 8). -/
def overlongAtEnd (policy : LongLinePolicy) (line : List Byte) : Bool :=
  decide (lineMax < line.length) && policy == .fault

/-- Whether SPLIT ends the line here, LF not seen (R140). -/
def splitHere (policy : LongLinePolicy) (line : List Byte) : Bool :=
  decide (line.length = lineMax) && policy == .split

/-- What the reads of a pass meet beside the input's bytes (R42, R276). -/
structure Reads where
  /-- Where a read returns `Err`. -/
  errAt : Option Nat
  /-- Where a read is never answered. -/
  holdAt : Option Nat
  /-- `End` is never returned. -/
  endless : Bool
deriving DecidableEq, Repr

/-- R140's loop. `rest` is the input from stream position `pos` on, `line` what the line holds so far. The
second answer is `in_pos` afterwards: one more for each byte consumed. Of an endless input `rest` is only a stretch;
where the line has not ended in it, the block is still reading (R276). -/
def frameFrom (policy : LongLinePolicy) (reads : Reads) :
    (rest : List Byte) → (pos : Nat) → (line : List Byte) → Frame × Nat
  | [], pos, line =>
    if reads.errAt = some pos then (.readError, pos)
    else if reads.holdAt = some pos ∨ reads.endless = true then (.waiting, pos)
    else if line = [] then (.endOfInput, pos)
    else if overlongAtEnd policy line then (.tooLong line, pos)
    else (.line line, pos)
  | b :: rest, pos, line =>
    if reads.errAt = some pos then (.readError, pos)
    else if reads.holdAt = some pos then (.waiting, pos)
    else if b = chLF then
      if overlong policy (line ++ [b]) then (.tooLong (line ++ [b]), pos + 1)
      else (.line (line ++ [b]), pos + 1)
    else if splitHere policy (line ++ [b]) then (.line (line ++ [b]), pos + 1)
    else frameFrom policy reads rest (pos + 1) (line ++ [b])

/-- The stream position at which a read of the current pass fails, if any (R42, R274). -/
def readErrAt (s : State) : Option Nat :=
  if s.phase = .decode then s.host.input.decodeErrAt else s.host.input.scanErrAt

/-- The stream position at which a read of the current pass is never answered, if any (R276). -/
def readHoldAt (s : State) : Option Nat :=
  if s.phase = .decode then s.host.input.decodeHoldAt else s.host.input.scanHoldAt

/-- What the reads of the current pass meet. -/
def passReads (s : State) : Reads :=
  { errAt := readErrAt s, holdAt := readHoldAt s, endless := s.host.input.cycle != [] }

/-- `n` bytes of a cycle repeated without end, from index `k` on. -/
def cycleFrom (cycle : List Byte) (k n : Nat) : List Byte :=
  if cycle = [] then [] else (List.range n).map (fun j => cycle.getD ((k + j) % cycle.length) 0#8)

/-- The input bytes the pass has not consumed: the byte at position `in_pos` is the next one read (R33, R60). Of an
endless input it is a stretch that holds the whole cycle and, under SPLIT, all of the next line. -/
def inputRest (s : State) : List Byte :=
  s.host.input.bytes.drop s.inPos ++
    cycleFrom s.host.input.cycle (s.inPos - s.host.input.bytes.length) (lineMax + s.host.input.cycle.length)

/-- R140, `FrameLine()`: its answer, and `in_pos` afterwards. -/
def frameLine (s : State) : Frame × Nat :=
  frameFrom s.longLinePolicy (passReads s) (inputRest s) s.inPos []

end Sys2Proof.Machine
end

