-- ==== Sys2Proof/Machine/Line.lean ====
section
/-! DEFINITION. Machine/Line.lean: the line step (R154 of 41_record_layer.md), its checks in the order of R248. -/
namespace Sys2Proof.Machine

/-- R151: the decode pass with `ignore_cs = 0` meets a record whose checksum does not hold. -/
def checksumFails (rec : List Byte) (s : State) : Bool :=
  s.phase == .decode && !s.ignoreCs && !verifyChecksum rec

/-- What a framed line does (R154): eligibility, length, checksum, then dispatch. -/
def processLine (line : List Byte) (s : State) : Host.Outcome State Fault Refusal :=
  match decodeLine line with
  | .error .notEligible => .next s
  | .error .tooShort => .next (malformed s)
  | .ok i => if checksumFails (lineRec line) s then .next (raise .badChecksum s) else exec i s

/-- What each framing outcome does (R142, R154). While `FrameLine()` has not returned, nothing happens (R276, log 16). -/
def afterFrame (f : Frame) (s : State) : Host.Outcome State Fault Refusal :=
  match f with
  | .readError => .next (raise .ioError s)
  | .endOfInput => .next (endPass s)
  | .tooLong _ => .next (malformed s)
  | .waiting => .next s
  | .line line => processLine line s

/-- R154, `LineStep()`: framing consumes bytes first, and the rest sees `in_pos` after them (R250). -/
def lineStep (s : State) : Host.Outcome State Fault Refusal :=
  afterFrame (frameLine s).1 { s with inPos := (frameLine s).2 }

end Sys2Proof.Machine
end

