-- ==== Sys2Proof/Machine/Pass.lean ====
section
/-! DEFINITION. Machine/Pass.lean: commands and call start, allocation, the block's step in each phase
(43_pass_control.md), and the host's moves (R41, R270, R273 to R278; log 2). -/
namespace Sys2Proof.Machine

/-! ### Commands (R200, R201, R270) -/

/-- R200: a SCAN command, accepted. It sets `ignore_cs` to 0 (R23). -/
def acceptScan (v : Variant) (s : State) : State :=
  { passStart (callStart s) with call := .scanCall, variant := v, ignoreCs := false, phase := .scan }

/-- R201: a DECODE command, accepted. The scan pass runs first. -/
def acceptDecode (v : Variant) (ignoreCs : Bool) (s : State) : State :=
  { passStart (callStart s) with call := .decodeCall, variant := v, ignoreCs := ignoreCs, phase := .scan }

/-- What an accepted command does (R41). -/
def command (p : CommandPort) (s : State) : State :=
  match p.cmd with
  | .nop => s
  | .reset => resetBlock s
  | .scan => acceptScan p.variant s
  | .decode => acceptDecode p.variant p.ignoreCs s

/-! ### Allocation (R211 to R215) -/

/-- R212: the size to request, on unbounded integers; none where R212 raises BufferBound. -/
def allocSize (s : State) : Option Nat :=
  if empty s then some 0
  else if s.minAddr.toNat ≤ s.maxAddr.toNat + 1 then some (s.maxAddr.toNat + 1 - s.minAddr.toNat)
  else none

/-- R213, R215 on `Ok`: a fresh buffer of `n` bytes, none of them written, then the rewind and the start of the
decode pass. -/
def startDecodePass (n : Nat) (s : State) : State :=
  { passStart s with bufSize := n, bufGranted := true, image := [], phase := .decode }

/-- R212 to R215: one allocation step. With no answer the block holds as it is (R213, R276; log 16). -/
def allocStep (s : State) : State :=
  match allocSize s with
  | none => raise .bufferBound s
  | some n =>
    match s.host.allocAnswer with
    | .ok => startDecodePass n s
    | .fail => raise .ioError s
    | .silent => s

/-! ### The block's step and the host's moves -/

/-- One step of the block with nothing issued: a line step, an allocation step, or none (R204, R213, R272). -/
def blockStep (s : State) : Host.Outcome State Fault Refusal :=
  match s.phase with
  | .scan => lineStep s
  | .decode => lineStep s
  | .alloc => .next (allocStep s)
  | .idle => .next s
  | .done => .next s
  | .error => .next s

/-- When the host may make a move: SCAN, DECODE and a new input only while `busy = 0` (R274, R277); RESET and NOP
at any time. -/
def admissible (m : HostMove) (s : State) : Bool :=
  match m with
  | .idle => true
  | .present _ _ => !busy s
  | .issue p =>
    match p.cmd with
    | .nop => true
    | .reset => true
    | .scan => !busy s
    | .decode => !busy s

/-- The host's side once its next move is made. -/
def dropMove (s : State) : State := { s with host := { s.host with moves := s.host.moves.tail } }

/-- The host positions an input and settles the next allocation's answer (R278). -/
def present (input : HostInput) (answer : AllocAnswer) (s : State) : State :=
  { s with host := { s.host with input := input, allocAnswer := answer } }

/-- The host's move is made. -/
def hostStep (m : HostMove) (s : State) : Host.Outcome State Fault Refusal :=
  match m with
  | .idle => blockStep s
  | .issue p => .next (command p s)
  | .present input answer => .next (present input answer s)

/-- The move the host makes before the block's next step, if any. A SCAN, DECODE or new input that must wait for
`busy = 0` is not made yet (R277). -/
def dueMove (s : State) : Option HostMove :=
  match s.host.moves with
  | [] => none
  | m :: _ => if admissible m s then some m else none

/-- One transaction: the host's due move, or a step of the block (R20; log 2). -/
def transaction (s : State) : Host.Outcome State Fault Refusal :=
  match dueMove s with
  | some m => hostStep m (dropMove s)
  | none => blockStep s

/-! ### Placing one instruction where the next line is framed (log 11) -/

/-- The input with `text` at stream position `pos` (an input that ends before `pos` is filled up with LF), and no
read of either pass failing or unanswered. -/
def inputWith (input : HostInput) (pos : Nat) (text : List Byte) : HostInput :=
  { bytes := input.bytes.take pos ++ List.replicate (pos - input.bytes.length) chLF ++ text ++
      input.bytes.drop (pos + text.length)
    cycle := input.cycle
    scanErrAt := none
    decodeErrAt := none
    scanHoldAt := none
    decodeHoldAt := none }

/-- `s` running a pass whose next line is `text`: a pass that is under way goes on (a decode pass without its
checksum check, since the word's checksum bits are 0); else a scan call is entered. No host move is due. -/
def placeLine (s : State) (text : List Byte) : State :=
  { s with
    phase := if s.phase = .decode then .decode else .scan
    call := if s.call = .none then .scanCall else s.call
    ignoreCs := if s.phase = .decode then true else s.ignoreCs
    host := { s.host with moves := [], input := inputWith s.host.input s.inPos text } }

end Sys2Proof.Machine
end

