-- ==== Sys2Proof/Machine/Step.lean ====
section
/-! DEFINITION. Machine/Step.lean: one step of the machine, and the placing of one instruction where the step frames
its next line. -/
namespace Sys2Proof.Machine

/-- One transaction-level step (R20, R204, R282): the host's due move, or the block's own step. -/
def step (s : State) : Host.Outcome State Fault Refusal := transaction s

/-- `s` with the table word's instruction as the very next line of a pass under way (log 11). -/
def State.withFetchWord (s : State) (nbits w : Nat) : State := placeLine s (tableWordText nbits w)

end Sys2Proof.Machine
end

