-- ==== Sys2Proof/Machine/Results.lean ====
section
/-! DEFINITION. Machine/Results.lean: the status and result port (R46) and the results of a call, which are defined
only while `phase = DONE` (R208, R219, R280). -/
namespace Sys2Proof.Machine

/-- The status and result port (R46): always readable. -/
structure StatusPort where
  phase : Phase
  err : ErrKind
  busy : Bool
  done : Bool
  error : Bool
  empty : Bool
  minAddr : Word32
  maxAddr : Word32
  totalSize : Word32
  entryAddr : Word32
  baseAddr : Word32
  bufSize : Nat
deriving DecidableEq, Repr

/-- What the host reads on the port at any instant (R46). -/
def statusPort (s : State) : StatusPort :=
  { phase := s.phase, err := s.err, busy := busy s, done := done s, error := error s, empty := empty s
    minAddr := s.minAddr, maxAddr := s.maxAddr, totalSize := s.totalSize, entryAddr := s.entryAddr
    baseAddr := s.baseAddr, bufSize := s.bufSize }

/-- `ScanResult` (R208). -/
structure ScanResult where
  minAddress : Word32
  maxAddress : Word32
  totalSize : Word32
  entryAddress : Word32
deriving DecidableEq, Repr

/-- The result of a scan call that has reached DONE (R208). -/
def scanResult (s : State) : Option ScanResult :=
  if s.phase = .done ∧ s.call = .scanCall then
    some { minAddress := s.minAddr, maxAddress := s.maxAddr, totalSize := s.totalSize
           entryAddress := s.entryAddr }
  else none

/-- The result of a decode call (R219). A byte of the buffer that no Data record wrote has no value (R66). -/
structure DecodeResult where
  buffer : List (Option Byte)
  baseAddress : Word32
  entryAddress : Word32
deriving DecidableEq, Repr

/-- `image[0 .. buf_size)` (R219). -/
def imageBytes (s : State) : List (Option Byte) := (List.range s.bufSize).map (Memory.read s.image)

/-- The result of a decode call that has reached DONE (R219). -/
def decodeResult (s : State) : Option DecodeResult :=
  if s.phase = .done ∧ s.call = .decodeCall then
    some { buffer := imageBytes s, baseAddress := s.baseAddr, entryAddress := s.entryAddr }
  else none

end Sys2Proof.Machine
end

