-- ==== Sys2Proof/Safety.lean ====
section
/-! DEFINITION. Safety.lean: what holds of the block in a sound state, whose turn it is, and the words in which the
statements speak of lines, frames and passes. -/
namespace Sys2Proof.Machine

/-! ### Whose turn it is -/

/-- A pass is under way: the block's step is a line step (R204). -/
def inPass (s : State) : Prop := s.phase = .scan ∨ s.phase = .decode

/-- No call is in progress: the phases in which SCAN and DECODE are accepted (R200, R201). -/
def atRest (s : State) : Prop := s.phase = .idle ∨ s.phase = .done ∨ s.phase = .error

/-- The state in which the block takes its own step, where the host makes no other move first: as it is, or
without the `idle` move the host spends on it (log 2). -/
def blockTurn (s : State) : Option State :=
  match dueMove s with
  | none => some s
  | some .idle => some (dropMove s)
  | some (.issue _) => none
  | some (.present _ _) => none

/-- The state with the input consumed up to `pos` (R140). -/
def atPos (s : State) (pos : Nat) : State := { s with inPos := pos }

/-- The block takes a line step in state `u` (the state `s`, or `s` after an `idle` move of the host), and framing
answers `f` with `in_pos` at `pos` afterwards. -/
def framesLine (s u : State) (f : Frame) (pos : Nat) : Prop :=
  blockTurn s = some u ∧ inPass u ∧ frameLine u = (f, pos)

/-- The block waits for an answer (R276): the read at `in_pos` is never answered, or `Alloc` is not. -/
def held (s : State) : Prop :=
  (inPass s ∧ readHoldAt s = some s.inPos ∧ readErrAt s ≠ some s.inPos) ∨
    (s.phase = .alloc ∧ s.host.allocAnswer = .silent ∧ ∃ n, allocSize s = some n)

/-- No RESET is among the host's moves to come. -/
def noReset (s : State) : Prop := ∀ p, .issue p ∈ s.host.moves → p.cmd ≠ .reset

/-- No line that the block meets in its run from here is an EOF record. -/
def meetsNoEof (s : State) : Prop :=
  ∀ k t line r, core.run k s = .next t → (frameLine t).1 = .line line → decodeLine line ≠ .ok (.eof r)

/-- A call is over (R283). -/
def callOver (s : State) : Prop := s.phase = .done ∨ s.phase = .error

/-! ### Invariants -/

/-- The shapes of the address registers: `seg_bias` is `v << 4` with `v < 2^16` (R25), `lin_bias` is `v << 16`
with `v < 2^16` (R26), and `entry_addr` is 0 (R30). -/
def BiasShapes (s : State) : Prop :=
  (s.segBias.toNat % 16 = 0 ∧ s.segBias.toNat < 2 ^ 20) ∧ s.linBias.toNat % 2 ^ 16 = 0 ∧
    s.entryAddr = 0#32

/-- The image buffer: its bytes are in canonical form and lie inside the granted buffer, whose size is at most
2^32 (R32, R63, R64). Where no buffer is granted there is no byte. -/
def ImageSound (s : State) : Prop :=
  Memory.wf s.image ∧ (∀ c ∈ s.image, c.1 < s.bufSize) ∧ s.bufSize ≤ 2 ^ 32 ∧
    (s.bufGranted = false → s.bufSize = 0)

/-- How the phase, the call and the result registers go together in a call (R21, R22, R23, R31, R34, R63, R212). -/
structure CallSound (s : State) : Prop where
  errInError : s.err = .none ↔ s.phase ≠ .error
  errRaised : s.err ≠ .addressTooLarge ∧ s.err ≠ .entryAddressTooLarge
  callInIdle : s.call = .none ↔ s.phase = .idle
  decodePhases : s.phase = .alloc ∨ s.phase = .decode → s.call = .decodeCall
  scanIgnoreCs : s.call = .scanCall → s.ignoreCs = false
  baseAddr : s.baseAddr = if s.phase = .done ∧ s.call = .decodeCall then s.minAddr else 0#32
  grantedIn : s.bufGranted = true → s.call = .decodeCall ∧ s.phase ≠ .scan ∧ s.phase ≠ .alloc
  grantedFor : s.phase = .decode ∨ (s.phase = .done ∧ s.call = .decodeCall) → s.bufGranted = true
  grantedSize : s.bufGranted = true → allocSize s = some s.bufSize

/-- A sound state of the block. -/
structure Inv (s : State) : Prop where
  biases : BiasShapes s
  image : ImageSound s
  call : CallSound s

/-! ### Characters -/

/-- A hex digit, upper or lower case (R14, R120). -/
def isHexDigit (c : Byte) : Prop :=
  (0x30 ≤ c.toNat ∧ c.toNat ≤ 0x39) ∨ (0x41 ≤ c.toNat ∧ c.toNat ≤ 0x46) ∨
    (0x61 ≤ c.toNat ∧ c.toNat ≤ 0x66)

/-- Lower-case letters made uppercase (R125). -/
def upperCase (c : Byte) : Byte :=
  if 0x61 ≤ c.toNat ∧ c.toNat ≤ 0x66 then c - 0x20#8 else c

/-! ### Reads of the pass -/

/-- No read of the current pass at a stream position from `lo` up to, not including, `hi` fails or is left unanswered. -/
def readsGood (s : State) (lo hi : Nat) : Prop :=
  ∀ p, readErrAt s = some p ∨ readHoldAt s = some p → p < lo ∨ hi ≤ p

/-- The host answers every request of a call, and its input ends (R276). -/
structure Answers (s : State) : Prop where
  ends : s.host.input.cycle = []
  scanReads : s.host.input.scanHoldAt = none
  decodeReads : s.host.input.decodeHoldAt = none
  alloc : s.host.allocAnswer ≠ .silent

/-- The effective address of a Data record as an exact sum reduced once (R170). -/
def exactAddress (r : Record) (s : State) : Nat :=
  (r.address.toNat + s.segBias.toNat + s.linBias.toNat) % 2 ^ 32

end Sys2Proof.Machine
end

