-- ==== Sys2Proof/Certificates/Slice0/Obligations.lean ====
section
/-! DEFINITION. Certificates/Slice0/Obligations.lean: the statements about the model, from the numbered rules of
spec/. Each docstring names the rule. Where a statement rests on a choice of the model, it names the log entry. -/
open Sys2Proof Sys2Proof.Machine

/-! ### The nibble codec (40_nibble_codec.md) -/

/-- R120: the value of every character, over all 256 inputs; the high four bits of the result are zero. -/
def Obligations.NibbleOfEveryCharacter : Prop :=
  ∀ c : Byte,
    (0x30 ≤ c.toNat ∧ c.toNat ≤ 0x39 → (hexToNibble c).toNat = c.toNat - 0x30) ∧
    (0x41 ≤ c.toNat ∧ c.toNat ≤ 0x46 → (hexToNibble c).toNat = c.toNat - 0x37) ∧
    (0x61 ≤ c.toNat ∧ c.toNat ≤ 0x66 → (hexToNibble c).toNat = c.toNat - 0x57) ∧
    (¬ isHexDigit c → hexToNibble c = 0#8) ∧
    (hexToNibble c).toNat ≤ 15

/-- R122: the uppercase hex digit of the low nibble; the high nibble is ignored. -/
def Obligations.HexDigitOfLowNibble : Prop :=
  ∀ n : Byte,
    (n.toNat % 16 ≤ 9 → (nibbleToHex n).toNat = 0x30 + n.toNat % 16) ∧
    (9 < n.toNat % 16 → (nibbleToHex n).toNat = 0x41 + (n.toNat % 16 - 10))

/-- R123 and R124: a pair and a byte's two characters, the high nibble first in both. -/
def Obligations.HighNibbleFirst : Prop :=
  (∀ c0 c1 : Byte,
    (decodeByte c0 c1).toNat = 16 * (hexToNibble c0).toNat + (hexToNibble c1).toNat) ∧
  (∀ b : Byte, encodeByte b =
    [nibbleToHex (BitVec.ofNat 8 (b.toNat / 16)), nibbleToHex (BitVec.ofNat 8 (b.toNat % 16))])

/-- R125 (marked derived in the spec): decoding an encoded byte gives it back; encoding a decoded pair of hex
digits gives the pair in upper case; for a pair with an invalid character it never does (`G1` gives `01`); encoding is
injective and decoding is not. -/
def Obligations.CodecLaws : Prop :=
  (∀ b : Byte, pairs (encodeByte b) = [b]) ∧
  (∀ c0 c1 : Byte, isHexDigit c0 → isHexDigit c1 →
    encodeByte (decodeByte c0 c1) = [upperCase c0, upperCase c1]) ∧
  (∀ c0 c1 : Byte, ¬ isHexDigit c0 ∨ ¬ isHexDigit c1 →
    encodeByte (decodeByte c0 c1) ≠ [upperCase c0, upperCase c1]) ∧
  encodeByte (decodeByte 0x47#8 0x31#8) = [0x30#8, 0x31#8] ∧
  (∀ b b' : Byte, encodeByte b = encodeByte b' → b = b') ∧
  (∃ c0 c1 d0 d1 : Byte, (c0, c1) ≠ (d0, d1) ∧ decodeByte c0 c1 = decodeByte d0 d1)

/-! ### Records and their encoding (30_encoding.md, 41_record_layer.md) -/

/-- R93: the fields of a record that is long enough. -/
def Obligations.RecordFields : Prop :=
  ∀ (bc a1 a0 ty : Byte) (rest : List Byte), bc.toNat + 1 ≤ rest.length →
    ∃ i, decodeRec (bc :: a1 :: a0 :: ty :: rest) = .ok i ∧
      i.record.count = bc.toNat ∧
      i.record.address.toNat = 256 * a1.toNat + a0.toNat ∧
      i.typeByte = ty ∧
      (∀ k, k < bc.toNat → i.record.data[k]? = rest[k]?) ∧
      some i.record.checksum = rest[bc.toNat]?

/-- R147, its first sentence: a record is long enough iff `n >= 1` and `n >= 5 + rec[0]`, and any other is
refused as too short. -/
def Obligations.LongEnoughDecodes : Prop :=
  ∀ rec : List Byte,
    ((∃ i, decodeRec rec = .ok i) ↔ 1 ≤ rec.length ∧ 5 + (rec.headD 0#8).toNat ≤ rec.length) ∧
    (¬ (1 ≤ rec.length ∧ 5 + (rec.headD 0#8).toNat ≤ rec.length) → decodeRec rec = .error .tooShort)

/-- R95: the type map over all 256 values of the whole type byte. -/
def Obligations.TypeMap : Prop :=
  ∀ (ty : Byte) (r : Record),
    (ty.toNat = 0x00 → instrOfType ty r = .data r) ∧
    (ty.toNat = 0x01 → instrOfType ty r = .eof r) ∧
    (ty.toNat = 0x02 → instrOfType ty r = .esa r) ∧
    (ty.toNat = 0x03 → instrOfType ty r = .sa r) ∧
    (ty.toNat = 0x04 → instrOfType ty r = .ela r) ∧
    (ty.toNat = 0x05 → instrOfType ty r = .sla r) ∧
    (0x06 ≤ ty.toNat ∧ ty.toNat ≤ 0x07 → instrOfType ty r = .unknown06_07 ty r) ∧
    (0x08 ≤ ty.toNat ∧ ty.toNat ≤ 0x0F → instrOfType ty r = .unknown08_0F ty r) ∧
    (0x10 ≤ ty.toNat ∧ ty.toNat ≤ 0x1F → instrOfType ty r = .unknown10_1F ty r) ∧
    (0x20 ≤ ty.toNat ∧ ty.toNat ≤ 0x3F → instrOfType ty r = .unknown20_3F ty r) ∧
    (0x40 ≤ ty.toNat ∧ ty.toNat ≤ 0x7F → instrOfType ty r = .unknown40_7F ty r) ∧
    (0x80 ≤ ty.toNat → instrOfType ty r = .unknown80_FF ty r)

/-- Decoding the encoding of a well-formed instruction gives it back, as record bytes and as a text line, for every
instruction and every operand value the encoding admits. -/
def Obligations.DecodeOfEncode : Prop :=
  ∀ i : Instr, i.wellFormed = true →
    decodeRec (encodeRec i) = .ok i ∧ decodeLine (encode i) = .ok i

/-- The other direction: what a decoded record's bytes were, up to the bytes after the checksum, which are ignored
(R149); and what the decoder gives is well formed. -/
def Obligations.EncodeOfDecode : Prop :=
  ∀ (rec : List Byte) (i : Instr), decodeRec rec = .ok i →
    i.wellFormed = true ∧ encodeRec i = rec.take (5 + i.record.count)

/-- R171 to R178: lines the spec writes out, one or more of each family, decode to what it says of them. -/
def Obligations.WrittenLinesDecode : Prop :=
  -- `:01001000AA45`, a Data record
  decodeLine [0x3A#8, 0x30#8, 0x31#8, 0x30#8, 0x30#8, 0x31#8, 0x30#8, 0x30#8, 0x30#8, 0x41#8, 0x41#8, 0x34#8,
    0x35#8, 0x0A#8] = .ok (.data { address := 0x0010#16, data := [0xAA#8], checksum := 0x45#8 }) ∧
  -- `:00000001FF`, EndOfFile
  decodeLine [0x3A#8, 0x30#8, 0x30#8, 0x30#8, 0x30#8, 0x30#8, 0x30#8, 0x30#8, 0x31#8, 0x46#8, 0x46#8, 0x0A#8] =
    .ok (.eof { address := 0#16, data := [], checksum := 0xFF#8 }) ∧
  -- `:020000021000EC`, ExtendedSegmentAddress
  decodeLine [0x3A#8, 0x30#8, 0x32#8, 0x30#8, 0x30#8, 0x30#8, 0x30#8, 0x30#8, 0x32#8, 0x31#8, 0x30#8, 0x30#8,
    0x30#8, 0x45#8, 0x43#8, 0x0A#8] =
    .ok (.esa { address := 0#16, data := [0x10#8, 0x00#8], checksum := 0xEC#8 }) ∧
  -- `:020000040001F9`, ExtendedLinearAddress
  decodeLine [0x3A#8, 0x30#8, 0x32#8, 0x30#8, 0x30#8, 0x30#8, 0x30#8, 0x30#8, 0x34#8, 0x30#8, 0x30#8, 0x30#8,
    0x31#8, 0x46#8, 0x39#8, 0x0A#8] =
    .ok (.ela { address := 0#16, data := [0x00#8, 0x01#8], checksum := 0xF9#8 }) ∧
  -- `:0400000300001234B3`, StartAddress
  decodeLine [0x3A#8, 0x30#8, 0x34#8, 0x30#8, 0x30#8, 0x30#8, 0x30#8, 0x30#8, 0x33#8, 0x30#8, 0x30#8, 0x30#8,
    0x30#8, 0x31#8, 0x32#8, 0x33#8, 0x34#8, 0x42#8, 0x33#8, 0x0A#8] =
    .ok (.sa { address := 0#16, data := [0x00#8, 0x00#8, 0x12#8, 0x34#8], checksum := 0xB3#8 }) ∧
  -- `:04000005000000CD2A`, StartLinearAddress
  decodeLine [0x3A#8, 0x30#8, 0x34#8, 0x30#8, 0x30#8, 0x30#8, 0x30#8, 0x30#8, 0x35#8, 0x30#8, 0x30#8, 0x30#8,
    0x30#8, 0x30#8, 0x30#8, 0x43#8, 0x44#8, 0x32#8, 0x41#8, 0x0A#8] =
    .ok (.sla { address := 0#16, data := [0x00#8, 0x00#8, 0x00#8, 0xCD#8], checksum := 0x2A#8 }) ∧
  -- `:00000006FA`, a reserved type
  decodeLine [0x3A#8, 0x30#8, 0x30#8, 0x30#8, 0x30#8, 0x30#8, 0x30#8, 0x30#8, 0x36#8, 0x46#8, 0x41#8, 0x0A#8] =
    .ok (.unknown06_07 0x06#8 { address := 0#16, data := [], checksum := 0xFA#8 })

/-! ### Checksum (41_record_layer.md section 5) -/

/-- R152 and R153 (a), (b) (R153 is marked derived in the spec): the computed checksum is the two's complement of the
running sum, a record that ends in it verifies, and a record verifies exactly when its checksum byte is that one. -/
def Obligations.ChecksumVerifies : Prop :=
  (∀ bytes : List Byte, (computeChecksum bytes).toNat = (256 - byteSum bytes % 256) % 256) ∧
  (∀ (b0 : Byte) (bs : List Byte), b0.toNat + 4 = (b0 :: bs).length →
    verifyChecksum ((b0 :: bs) ++ [computeChecksum (b0 :: bs)]) = true) ∧
  (∀ (rec : List Byte) (i : Instr), decodeRec rec = .ok i →
    (verifyChecksum rec = true ↔
      i.record.checksum = computeChecksum (rec.take (4 + i.record.count))))

/-- R153 (c) (marked derived in the spec): changing exactly one of the bytes `rec[1 .. 4+bc]` to another value makes a
passing record fail. -/
def Obligations.OneChangedByteIsDetected : Prop :=
  ∀ (rec : List Byte) (i : Instr) (k : Nat) (old new : Byte),
    decodeRec rec = .ok i → verifyChecksum rec = true →
    1 ≤ k → k ≤ 4 + i.record.count → rec[k]? = some old → new ≠ old →
    verifyChecksum (rec.set k new) = false

/-! ### Framing (41_record_layer.md section 1) -/

/-- R140: whatever framing answers, it has consumed exactly the line's bytes, from `in_pos` on and up to the first LF
at most, with no failed or unanswered read among them; `End` is answered only where no byte is left; a failed read is
answered at the position where the read fails, before any LF. R276: framing has not returned only where a read is not
answered, or, under FAULT, where an endless input holds no LF. -/
def Obligations.FramingConsumesTheLine : Prop :=
  ∀ s : State,
    (∀ line pos, frameLine s = (.line line, pos) ∨ frameLine s = (.tooLong line, pos) →
      line ≠ [] ∧ pos = s.inPos + line.length ∧ line = (inputRest s).take line.length ∧
        chLF ∉ line.dropLast ∧ readsGood s s.inPos pos) ∧
    (∀ pos, frameLine s = (.endOfInput, pos) →
      pos = s.inPos ∧ inputRest s = [] ∧ s.host.input.cycle = [] ∧ readErrAt s ≠ some pos ∧
        readHoldAt s ≠ some pos) ∧
    (∀ pos, frameLine s = (.readError, pos) →
      readErrAt s = some pos ∧ s.inPos ≤ pos ∧ pos ≤ s.inPos + (inputRest s).length ∧
        chLF ∉ (inputRest s).take (pos - s.inPos)) ∧
    (∀ pos, frameLine s = (.waiting, pos) →
      s.inPos ≤ pos ∧ pos ≤ s.inPos + (inputRest s).length ∧ readErrAt s ≠ some pos ∧
        readsGood s s.inPos pos ∧ chLF ∉ (inputRest s).take (pos - s.inPos) ∧
        (readHoldAt s = some pos ∨
          s.longLinePolicy = .fault ∧ s.host.input.cycle ≠ [] ∧ chLF ∉ s.host.input.cycle))

/-- R140, under either policy: a line of fewer than 511 bytes before its LF is framed whole, its LF included; a final
line with no LF is a line; and an input with nothing left answers `End`. -/
def Obligations.LinesWithinTheLimit : Prop :=
  (∀ (s : State) (body tail : List Byte),
    inputRest s = body ++ chLF :: tail → chLF ∉ body → body.length < 511 →
    readsGood s s.inPos (s.inPos + body.length + 1) →
    frameLine s = (.line (body ++ [chLF]), s.inPos + body.length + 1)) ∧
  (∀ (s : State) (body : List Byte), s.host.input.cycle = [] →
    inputRest s = body → chLF ∉ body → body.length < 511 →
    readsGood s s.inPos (s.inPos + body.length + 1) →
    (body ≠ [] → frameLine s = (.line body, s.inPos + body.length)) ∧
    (body = [] → frameLine s = (.endOfInput, s.inPos)))

/-- R276: an unanswered request holds the block for ever. Where a read is not answered, or a line goes on without end,
the step only consumes the bytes read; a block that waits for an answer stays as it is through every step, but for the
host's moves, until a RESET (R270, R277); and a pass over an input without `End` that meets no EOF record goes on for
ever or ends in an error. The steps that show the waiting, and that RESET ends it, are the model's reading (log 16). -/
def Obligations.UnansweredRequestsHold : Prop :=
  (∀ (s u : State) (pos : Nat), framesLine s u .waiting pos →
    step s = .next { u with inPos := pos } ∧ (readHoldAt u = some pos → held { u with inPos := pos })) ∧
  (∀ (s : State) (n : Nat), held s → noReset s →
    ∃ t, core.run n s = .next t ∧ t = { s with host := { s.host with moves := t.host.moves } }) ∧
  (∀ (s : State) (n : Nat), inPass s → s.host.moves = [] → s.host.input.cycle ≠ [] → meetsNoEof s →
    ∃ t, core.run n s = .next t ∧ (t.phase = s.phase ∨ t.phase = .error))

/-- R141: under SPLIT, the first 511 bytes without an LF are a line. Under FAULT, a line is `TooLong` exactly when its
content, not counting one CR just before the LF, exceeds 511; so is a final line of more than 511 bytes without LF,
whose last CR counts (the model's reading of R140, log 8). -/
def Obligations.LongLines : Prop :=
  (∀ (s : State) (body tail : List Byte), s.longLinePolicy = .split →
    inputRest s = body ++ tail → chLF ∉ body → body.length = 511 →
    readsGood s s.inPos (s.inPos + 511) →
    frameLine s = (.line body, s.inPos + 511)) ∧
  (∀ (s : State) (body tail : List Byte), s.longLinePolicy = .fault →
    inputRest s = body ++ chLF :: tail → chLF ∉ body →
    readsGood s s.inPos (s.inPos + body.length + 1) →
    frameLine s =
      (if 511 < body.length - (if body.getLast? = some chCR then 1 else 0)
        then .tooLong (body ++ [chLF]) else .line (body ++ [chLF]),
       s.inPos + body.length + 1)) ∧
  (∀ (s : State) (body : List Byte), s.longLinePolicy = .fault → s.host.input.cycle = [] →
    inputRest s = body → chLF ∉ body → body ≠ [] →
    readsGood s s.inPos (s.inPos + body.length + 1) →
    frameLine s = (if 511 < body.length then .tooLong body else .line body, s.inPos + body.length))

/-- R148 (marked derived in the spec): under either policy the largest byteCount of an accepted record is 250. -/
def Obligations.AcceptedByteCount : Prop :=
  ∀ (s : State) (line : List Byte) (pos : Nat) (i : Instr),
    frameLine s = (.line line, pos) → decodeLine line = .ok i → i.record.count ≤ 250

/-! ### The line step (41_record_layer.md section 6, 60_exceptions.md) -/

/-- When the bytes at `in_pos` decode to an instruction and the checksum is not in the way (R151), the step is `exec` of
that instruction, with `in_pos` moved past the line. -/
def Obligations.StepRunsDecodedInstruction : Prop :=
  ∀ (s u : State) (line : List Byte) (pos : Nat) (i : Instr),
    framesLine s u (.line line) pos → decodeLine line = .ok i →
    (u.phase = .scan ∨ u.ignoreCs = true ∨ verifyChecksum (lineRec line) = true) →
    step s = exec i { u with inPos := pos }

/-- R151 and R243: in the decode pass with `ignore_cs = 0` a failing checksum raises BadChecksum, for a record of any
type; with `ignore_cs = 1` and in the scan pass the record proceeds as if it passed. -/
def Obligations.ChecksumCheckedOnlyInDecode : Prop :=
  ∀ (s u : State) (line : List Byte) (pos : Nat) (i : Instr),
    framesLine s u (.line line) pos → decodeLine line = .ok i → verifyChecksum (lineRec line) = false →
    (u.phase = .decode ∧ u.ignoreCs = false →
      step s = .next { u with inPos := pos, err := .badChecksum, phase := .error }) ∧
    (u.phase = .decode ∧ u.ignoreCs = true → step s = exec i { u with inPos := pos }) ∧
    (u.phase = .scan → step s = exec i { u with inPos := pos })

/-- R143: a line that is shorter than 9 bytes or does not start with `:` is skipped silently in both passes; only
`in_pos` changes. -/
def Obligations.IneligibleLineIsSkipped : Prop :=
  ∀ (s u : State) (line : List Byte) (pos : Nat),
    framesLine s u (.line line) pos → (line.length < 9 ∨ line.head? ≠ some 0x3A#8) →
    step s = .next { u with inPos := pos }

/-- R147: an eligible line whose pairs do not cover `5 + byteCount` bytes raises BadHexData in the decode pass and is
skipped in the scan pass. -/
def Obligations.ShortLineOutcome : Prop :=
  ∀ (s u : State) (line : List Byte) (pos : Nat),
    framesLine s u (.line line) pos → 9 ≤ line.length → line.head? = some 0x3A#8 →
    ¬ (1 ≤ (lineRec line).length ∧ 5 + ((lineRec line).headD 0#8).toNat ≤ (lineRec line).length) →
    (u.phase = .decode → step s = .next { u with inPos := pos, err := .badHexData, phase := .error }) ∧
    (u.phase = .scan → step s = .next { u with inPos := pos })

/-- R141, R154: an overlong line under FAULT is skipped in the scan pass and raises BadHexData in the decode pass. -/
def Obligations.OverlongLineOutcome : Prop :=
  ∀ (s u : State) (line : List Byte) (pos : Nat),
    framesLine s u (.tooLong line) pos →
    (u.phase = .decode → step s = .next { u with inPos := pos, err := .badHexData, phase := .error }) ∧
    (u.phase = .scan → step s = .next { u with inPos := pos })

/-- R241: IoError is raised (a) by a failed read in either pass, with the bytes read so far consumed, and (b) by an
allocation the host fails. -/
def Obligations.IoErrorCauses : Prop :=
  (∀ (s u : State) (pos : Nat), framesLine s u .readError pos →
    step s = .next { u with inPos := pos, err := .ioError, phase := .error }) ∧
  (∀ (s u : State) (n : Nat), blockTurn s = some u → u.phase = .alloc → allocSize u = some n →
    u.host.allocAnswer = .fail → step s = .next { u with err := .ioError, phase := .error })

/-- R206 (b), R207, R217, R218: `End` ends the pass normally, with or without an EOF record before it. -/
def Obligations.EndOfInputEndsPass : Prop :=
  ∀ (s u : State) (pos : Nat), framesLine s u .endOfInput pos →
    (u.phase = .scan ∧ u.call = .scanCall → step s = .next { u with inPos := pos, phase := .done }) ∧
    (u.phase = .scan ∧ u.call = .decodeCall → step s = .next { u with inPos := pos, phase := .alloc }) ∧
    (u.phase = .decode → step s = .next { u with inPos := pos, baseAddr := u.minAddr, phase := .done })

/-! ### The records (42_record_dispatch.md) -/

/-- R170: the record address plus both biases, modulo 2^32. -/
def Obligations.EffectiveAddressSum : Prop :=
  ∀ (r : Record) (s : State), (effectiveAddress r.address s).toNat =
    (r.address.toNat + s.segBias.toNat + s.linBias.toNat) % 2 ^ 32

/-- R171: a Data record in the scan pass completes; it lowers `min_addr`, raises `max_addr` to the wrapped candidate,
adds to `total_size`, and writes no other register and no byte of the image. -/
def Obligations.DataInScanPass : Prop :=
  ∀ (r : Record) (s : State), s.phase = .scan →
    ∃ t, exec (.data r) s = .next t ∧
      t.minAddr.toNat = min s.minAddr.toNat (exactAddress r s) ∧
      t.maxAddr.toNat = max s.maxAddr.toNat ((exactAddress r s + r.count + (2 ^ 32 - 1)) % 2 ^ 32) ∧
      t.totalSize.toNat = (s.totalSize.toNat + r.count) % 2 ^ 32 ∧
      t = { s with minAddr := t.minAddr, maxAddr := t.maxAddr, totalSize := t.totalSize }

/-- R172: a Data record in the decode pass. Outside the buffer it raises BufferBound and writes nothing; inside, it
completes, writes its bytes at ascending offsets from `E - min_addr`, and leaves every register and every other byte
of the image. -/
def Obligations.DataInDecodePass : Prop :=
  ∀ (r : Record) (s : State), s.phase = .decode →
    (exactAddress r s < s.minAddr.toNat ∨
        s.bufSize < exactAddress r s - s.minAddr.toNat + r.count →
      exec (.data r) s = .next { s with err := .bufferBound, phase := .error }) ∧
    (s.minAddr.toNat ≤ exactAddress r s ∧
        exactAddress r s - s.minAddr.toNat + r.count ≤ s.bufSize →
      ∃ t, exec (.data r) s = .next t ∧ t = { s with image := t.image } ∧
        (∀ k, k < r.count →
          Memory.read t.image (exactAddress r s - s.minAddr.toNat + k) = r.data[k]?) ∧
        (∀ off, off < exactAddress r s - s.minAddr.toNat ∨
            exactAddress r s - s.minAddr.toNat + r.count ≤ off →
          Memory.read t.image off = Memory.read s.image off))

/-- R173 with R207: an EOF record ends the pass, whatever its byteCount, address and data; no other register is
written. -/
def Obligations.EofEndsPass : Prop :=
  ∀ (r : Record) (s : State),
    (s.phase = .scan ∧ s.call = .scanCall → exec (.eof r) s = .next { s with phase := .done }) ∧
    (s.phase = .scan ∧ s.call = .decodeCall → exec (.eof r) s = .next { s with phase := .alloc }) ∧
    (s.phase = .decode → exec (.eof r) s = .next { s with baseAddr := s.minAddr, phase := .done })

/-- R174 and R97: an ESA record of byteCount 2 or more sets `seg_bias` to the 16-bit big-endian value shifted left by 4
and writes nothing else; later data bytes and the address field are ignored. -/
def Obligations.EsaSetsSegmentBias : Prop :=
  ∀ (r : Record) (s : State) (d0 d1 : Byte) (more : List Byte), r.data = d0 :: d1 :: more →
    exec (.esa r) s =
      .next { s with segBias := BitVec.ofNat 32 ((256 * d0.toNat + d1.toNat) * 16) }

/-- R176 and R98: an ELA record of byteCount 2 or more sets `lin_bias` to the 16-bit big-endian value shifted left by
16 and writes nothing else; the segment bias stays. -/
def Obligations.ElaSetsLinearBias : Prop :=
  ∀ (r : Record) (s : State) (d0 d1 : Byte) (more : List Byte), r.data = d0 :: d1 :: more →
    exec (.ela r) s =
      .next { s with linBias := BitVec.ofNat 32 ((256 * d0.toNat + d1.toNat) * 2 ^ 16) }

/-- R179: an ESA or ELA record of byteCount below 2 changes no register in the scan pass and raises BadHexData in the
decode pass. -/
def Obligations.ShortExtensionRecord : Prop :=
  ∀ (r : Record) (s : State), r.count < 2 →
    (s.phase = .scan → exec (.esa r) s = .next s ∧ exec (.ela r) s = .next s) ∧
    (s.phase = .decode →
      exec (.esa r) s = .next { s with err := .badHexData, phase := .error } ∧
      exec (.ela r) s = .next { s with err := .badHexData, phase := .error })

/-- R175 and R177: the start-address records, of any length, change nothing. -/
def Obligations.StartRecordsChangeNothing : Prop :=
  ∀ (r : Record) (s : State), exec (.sa r) s = .next s ∧ exec (.sla r) s = .next s

/-- R178: every reserved type raises UnknownRecordType in both passes, whatever `ignore_cs` is. -/
def Obligations.ReservedTypesRaise : Prop :=
  ∀ (ty : Byte) (r : Record) (s : State) (i : Instr),
    i = .unknown06_07 ty r ∨ i = .unknown08_0F ty r ∨ i = .unknown10_1F ty r ∨
      i = .unknown20_3F ty r ∨ i = .unknown40_7F ty r ∨ i = .unknown80_FF ty r →
    exec i s = .next { s with err := .unknownRecordType, phase := .error }

/-- The frame of the records that store nothing (types 01 to FF): every byte of the image reads as before; the scan
result, `buf_size`, `in_pos` and the call's settings stay; only ESA writes `seg_bias`, only ELA `lin_bias`, only EOF
`base_addr`; `err` is written only by a record that raises (R36, R173 to R179). -/
def Obligations.NonDataFrame : Prop :=
  ∀ (i : Instr) (s t : State), i.typeByte ≠ 0x00#8 → i.wellFormed = true → exec i s = .next t →
    (∀ off, Memory.read t.image off = Memory.read s.image off) ∧
    t.minAddr = s.minAddr ∧ t.maxAddr = s.maxAddr ∧ t.totalSize = s.totalSize ∧
    t.entryAddr = s.entryAddr ∧ t.bufSize = s.bufSize ∧ t.bufGranted = s.bufGranted ∧
    t.inPos = s.inPos ∧ t.call = s.call ∧ t.ignoreCs = s.ignoreCs ∧ t.variant = s.variant ∧
    t.longLinePolicy = s.longLinePolicy ∧ t.host = s.host ∧
    (i.typeByte ≠ 0x02#8 → t.segBias = s.segBias) ∧
    (i.typeByte ≠ 0x04#8 → t.linBias = s.linBias) ∧
    (i.typeByte ≠ 0x01#8 → t.baseAddr = s.baseAddr) ∧
    (t.phase ≠ .error → t.err = s.err) ∧
    (i.typeByte = 0x03#8 ∨ i.typeByte = 0x05#8 → t.phase = s.phase)

/-- The frame of a Data record: outside the bytes it stores, at the offset the meaning computes, every byte of the
image reads as before; where it stores nothing, every byte does. Both biases, the results of other steps, `in_pos` and
the call's settings stay; the scan result changes only in the scan pass; `phase` and `err` change only together, by a
raise (R36, R171, R172). -/
def Obligations.DataFrame : Prop :=
  ∀ (r : Record) (s t : State), exec (.data r) s = .next t →
    (∀ base off, s.phase ≠ .scan → dataOffset r s = some base → (off < base ∨ base + r.count ≤ off) →
      Memory.read t.image off = Memory.read s.image off) ∧
    (s.phase = .scan ∨ dataOffset r s = none → ∀ off, Memory.read t.image off = Memory.read s.image off) ∧
    (s.phase ≠ .scan →
      t.minAddr = s.minAddr ∧ t.maxAddr = s.maxAddr ∧ t.totalSize = s.totalSize) ∧
    t.segBias = s.segBias ∧ t.linBias = s.linBias ∧ t.entryAddr = s.entryAddr ∧
    t.baseAddr = s.baseAddr ∧ t.bufSize = s.bufSize ∧ t.bufGranted = s.bufGranted ∧
    t.inPos = s.inPos ∧ t.call = s.call ∧ t.ignoreCs = s.ignoreCs ∧ t.variant = s.variant ∧
    t.longLinePolicy = s.longLinePolicy ∧ t.host = s.host ∧
    ((t.phase = s.phase ∧ t.err = s.err) ∨ (t.phase = .error ∧ t.err = .bufferBound))

/-- R183 (marked derived in the spec): after ESA 1000 and ELA 0001 from the neutral state, both biases add, in either
pass; a later ESA 0000 takes the segment bias away again. -/
def Obligations.BothBiasesCombine : Prop :=
  ∀ (s : State) (x y : Byte) (a b : Word16), s.segBias = 0#32 → s.linBias = 0#32 →
    ∃ t u v, exec (.esa { address := a, data := [0x10#8, 0x00#8], checksum := x }) s = .next t ∧
      exec (.ela { address := b, data := [0x00#8, 0x01#8], checksum := y }) t = .next u ∧
      (effectiveAddress 0x0010#16 u).toNat = 0x00020010 ∧
      exec (.esa { address := a, data := [0x00#8, 0x00#8], checksum := x }) u = .next v ∧
      (effectiveAddress 0x0010#16 v).toNat = 0x00010010

/-! ### Commands (43_pass_control.md section 1, 70_reset_and_hazards.md) -/

/-- R200 with R202 (and R203 at the start of the scan pass): SCAN, issued outside a call, starts a scan call with its
results, the biases, `in_pos` and `err` initialised and `ignore_cs` 0. No image buffer is held (R63; that an old one is
dropped here is the model's reading, log 7). -/
def Obligations.ScanCommandStartsCall : Prop :=
  ∀ (s : State) (v : Variant) (ic : Bool) (more : List HostMove), atRest s →
    s.host.moves = .issue { cmd := .scan, variant := v, ignoreCs := ic } :: more →
    step s = .next
      { phase := .scan, call := .scanCall, ignoreCs := false, variant := v
        segBias := 0#32, linBias := 0#32, minAddr := 0xFFFFFFFF#32, maxAddr := 0#32, totalSize := 0#32
        entryAddr := 0#32, baseAddr := 0#32, bufSize := 0, inPos := 0, err := .none
        bufGranted := false, image := []
        longLinePolicy := s.longLinePolicy, host := { s.host with moves := more } }

/-- R201 with R202 (and R203 at the start of the scan pass): DECODE, issued outside a call, starts a decode call, whose
scan pass runs first, with `ignore_cs` latched. No image buffer is held (R63; that an old one is dropped here is the
model's reading, log 7). -/
def Obligations.DecodeCommandStartsCall : Prop :=
  ∀ (s : State) (v : Variant) (ic : Bool) (more : List HostMove), atRest s →
    s.host.moves = .issue { cmd := .decode, variant := v, ignoreCs := ic } :: more →
    step s = .next
      { phase := .scan, call := .decodeCall, ignoreCs := ic, variant := v
        segBias := 0#32, linBias := 0#32, minAddr := 0xFFFFFFFF#32, maxAddr := 0#32, totalSize := 0#32
        entryAddr := 0#32, baseAddr := 0#32, bufSize := 0, inPos := 0, err := .none
        bufGranted := false, image := []
        longLinePolicy := s.longLinePolicy, host := { s.host with moves := more } }

/-- R277: while a call is in progress, SCAN, DECODE and a new input are not issued: the step is the block's own and the
move still waits after it (the waiting is the model's choice, log 2). -/
def Obligations.CallCommandsWaitWhileBusy : Prop :=
  ∀ (s : State) (m : HostMove) (more : List HostMove), busy s = true → s.host.moves = m :: more →
    ((∃ p, m = .issue p ∧ (p.cmd = .scan ∨ p.cmd = .decode)) ∨ ∃ input answer, m = .present input answer) →
    step s = blockStep s ∧ ∀ t, step s = .next t → t.host = s.host

/-- R47: RESET, in every phase, loads every register with its reset value, and so does power-on. That the open
parameter and the host's side, which are no registers, stay is the model's choice (log 1, log 12);
that RESET is taken while a request is unanswered too is its reading (log 16). -/
def Obligations.ResetLoadsTheTable : Prop :=
  (∀ (s : State) (v : Variant) (ic : Bool) (more : List HostMove),
    s.host.moves = .issue { cmd := .reset, variant := v, ignoreCs := ic } :: more →
    ∃ t, step s = .next t ∧
      t = { State.reset with longLinePolicy := s.longLinePolicy, host := { s.host with moves := more } }) ∧
  (State.reset.phase = .idle ∧ State.reset.call = .none ∧ State.reset.ignoreCs = false ∧
    State.reset.variant = .plain ∧ State.reset.segBias = 0x00000000#32 ∧
    State.reset.linBias = 0x00000000#32 ∧ State.reset.minAddr = 0xFFFFFFFF#32 ∧
    State.reset.maxAddr = 0x00000000#32 ∧ State.reset.totalSize = 0x00000000#32 ∧
    State.reset.entryAddr = 0x00000000#32 ∧ State.reset.baseAddr = 0x00000000#32 ∧
    State.reset.bufSize = 0 ∧ State.reset.inPos = 0 ∧ State.reset.err = .none ∧
    State.reset.bufGranted = false ∧ State.reset.image = [])

/-- R41: NOP, in every phase, does nothing (that it takes a transaction of its own is the model's choice, log 2). And
outside a call the host's new input takes the place of the old one; that a new input is a move of its own, and that it
settles the allocation's answer too, are the model's choices (log 2, log 5). -/
def Obligations.NopAndNewInput : Prop :=
  (∀ (s : State) (v : Variant) (ic : Bool) (more : List HostMove),
    s.host.moves = .issue { cmd := .nop, variant := v, ignoreCs := ic } :: more →
    step s = .next { s with host := { s.host with moves := more } }) ∧
  (∀ (s : State) (input : HostInput) (answer : AllocAnswer) (more : List HostMove), atRest s →
    s.host.moves = .present input answer :: more →
    step s = .next { s with host := { moves := more, input := input, allocAnswer := answer } })

/-- R252, R272 (marked derived in the spec): in IDLE, DONE and ERROR the block takes no step of its own. That the
model's step answers the same state there is the model's choice (log 13). -/
def Obligations.NoStepOutsideCall : Prop :=
  ∀ s u : State, blockTurn s = some u → atRest u → step s = .next u

/-! ### Allocation and results (43_pass_control.md sections 4 and 5) -/

/-- R212: the size requested, on unbounded integers, and BufferBound where there is none. -/
def Obligations.AllocationSize : Prop :=
  ∀ s : State,
    (s.minAddr = 0xFFFFFFFF#32 ∧ s.maxAddr = 0#32 → allocSize s = some 0) ∧
    (¬ (s.minAddr = 0xFFFFFFFF#32 ∧ s.maxAddr = 0#32) → s.minAddr.toNat ≤ s.maxAddr.toNat + 1 →
      allocSize s = some (s.maxAddr.toNat + 1 - s.minAddr.toNat)) ∧
    (¬ (s.minAddr = 0xFFFFFFFF#32 ∧ s.maxAddr = 0#32) → s.maxAddr.toNat + 1 < s.minAddr.toNat →
      allocSize s = none ∧
        ∀ s' : State, blockTurn s' = some s → s.phase = .alloc →
          step s' = .next { s with err := .bufferBound, phase := .error })

/-- R213 on `Ok` (`buf_size <- n`) and R215: the input is rewound, the biases are neutral and the decode pass starts; the
scan result stays. That the granted buffer holds no written byte is the model's reading (log 7). -/
def Obligations.AllocationStartsDecodePass : Prop :=
  ∀ (s u : State) (n : Nat), blockTurn s = some u → u.phase = .alloc → allocSize u = some n →
    u.host.allocAnswer = .ok →
    step s = .next { u with bufSize := n, bufGranted := true, image := [], inPos := 0,
                            segBias := 0#32, linBias := 0#32, phase := .decode }

/-- R208: the result of a scan call, at the `end pass` that completes it. -/
def Obligations.ScanCallResult : Prop :=
  ∀ s : State, BiasShapes s → s.phase = .scan → s.call = .scanCall →
    (endPass s).phase = .done ∧
    scanResult (endPass s) = some { minAddress := s.minAddr, maxAddress := s.maxAddr,
                                    totalSize := s.totalSize, entryAddress := 0#32 }

/-- R218 and R219: the result of a decode call, at the `end pass` that completes it: `buf_size` bytes, byte `k` what the
image holds at offset `k` (no value in a gap), `baseAddress = min_addr`, `entryAddress = 0`. -/
def Obligations.DecodeCallResult : Prop :=
  ∀ s : State, BiasShapes s → s.phase = .decode → s.call = .decodeCall →
    ∃ res, decodeResult (endPass s) = some res ∧ (endPass s).phase = .done ∧
      res.buffer.length = s.bufSize ∧
      (∀ k, k < s.bufSize → res.buffer[k]? = some (Memory.read s.image k)) ∧
      res.baseAddress = s.minAddr ∧ res.entryAddress = 0#32

/-- R74, R275, R66, R63: the host's read gives, in DONE, the byte a Data record wrote at an offset of the granted buffer.
It stops by name in a gap, outside the buffer, and in every other phase; that these reads stop is the model's choice
(log 6, log 15). No step makes such a read. -/
def Obligations.ImageReadByHost : Prop :=
  ∀ (s : State) (off : Nat),
    (s.phase = .done → s.bufGranted = true → off < s.bufSize →
      (∀ b, Memory.read s.image off = some b → readImage s off = .ok b) ∧
      (Memory.read s.image off = none → readImage s off = .error .gapByte)) ∧
    (s.phase = .done → s.bufSize ≤ off ∨ s.bufGranted = false → readImage s off = .error .outsideBuffer) ∧
    (s.phase ≠ .done → readImage s off = .error .notResult)

/-! ### The whole machine -/

/-- From every state the step answers a next state: in a pass and in ALLOC the spec's errors are next states (R245), and
nothing else stops the block (R206). Two of the cases rest on the model's choices: in IDLE, DONE and ERROR, where the
spec says that no step is taken, the step answers the same state (log 13); and a request that is not answered is shown
by steps that only wait (log 16). -/
def Obligations.EveryStepGoesOn : Prop :=
  ∀ s : State, ∃ t, step s = .next t

/-- The state after reset is sound, and every step keeps a sound state (`Inv`, Safety.lean) sound: the shapes of the
biases (R25, R26), entry address 0 (R30), the image in canonical form inside its buffer (R63, R64), and the bookkeeping
of a call (R21 to R34). -/
def Obligations.StepKeepsInv : Prop :=
  Inv State.reset ∧ ∀ s t : State, Inv s → step s = .next t → Inv t

/-- R37, R46, R240: the four status levels and their reset values 0, 0, 0, 1; what the status and result port shows, and
that there is no result outside DONE; the eight error codes; and, in a sound state, `error = 1` exactly where `err` is
not NONE. -/
def Obligations.StatusAndErrorCodes : Prop :=
  (∀ s : State,
    (busy s = true ↔ s.phase = .scan ∨ s.phase = .alloc ∨ s.phase = .decode) ∧
    (done s = true ↔ s.phase = .done) ∧
    (error s = true ↔ s.phase = .error) ∧
    (empty s = true ↔ s.minAddr.toNat = 0xFFFFFFFF ∧ s.maxAddr.toNat = 0)) ∧
  (busy State.reset = false ∧ done State.reset = false ∧ error State.reset = false ∧
    empty State.reset = true) ∧
  (∀ s : State,
    (statusPort s).phase = s.phase ∧ (statusPort s).err = s.err ∧
    (statusPort s).busy = busy s ∧ (statusPort s).done = done s ∧
    (statusPort s).error = error s ∧ (statusPort s).empty = empty s ∧
    (statusPort s).minAddr = s.minAddr ∧ (statusPort s).maxAddr = s.maxAddr ∧
    (statusPort s).totalSize = s.totalSize ∧ (statusPort s).entryAddr = s.entryAddr ∧
    (statusPort s).baseAddr = s.baseAddr ∧ (statusPort s).bufSize = s.bufSize ∧
    (s.phase ≠ .done → scanResult s = none ∧ decodeResult s = none)) ∧
  ((errCode .none).toNat = 0 ∧ (errCode .addressTooLarge).toNat = 1 ∧ (errCode .ioError).toNat = 2 ∧
    (errCode .badHexData).toNat = 3 ∧ (errCode .unknownRecordType).toNat = 4 ∧
    (errCode .badChecksum).toNat = 5 ∧ (errCode .entryAddressTooLarge).toNat = 6 ∧
    (errCode .bufferBound).toNat = 7) ∧
  (∀ s : State, Inv s → (error s = true ↔ s.err ≠ .none))

/-- R64: whatever the state, a step changes the image only in the decode pass, or drops it whole (a new call, RESET, the
buffer just granted). -/
def Obligations.ImageWrittenOnlyInDecode : Prop :=
  ∀ s t : State, step s = .next t → t.image ≠ s.image → s.phase = .decode ∨ t.image = []

/-- R209 and R210 (both marked derived in the spec): a step of the scan pass changes nothing but the biases, the scan
result, `in_pos`, `phase` and `err`, and the only errors it raises are IoError and UnknownRecordType. -/
def Obligations.ScanPassEffects : Prop :=
  ∀ s u t : State, blockTurn s = some u → u.phase = .scan → step s = .next t →
    t = { u with segBias := t.segBias, linBias := t.linBias, minAddr := t.minAddr, maxAddr := t.maxAddr,
                 totalSize := t.totalSize, inPos := t.inPos, phase := t.phase, err := t.err } ∧
    (t.phase = .error → t.err = .ioError ∨ t.err = .unknownRecordType)

/-- R206: a pass is left only by `End`, by an EOF record or by an error; the two normal ways lead to DONE or ALLOC. -/
def Obligations.WaysOutOfAPass : Prop :=
  ∀ s u t : State, blockTurn s = some u → inPass u → step s = .next t → t.phase ≠ u.phase →
    t.phase = .error ∨
    ((t.phase = .done ∨ t.phase = .alloc) ∧
      ((frameLine u).1 = .endOfInput ∨
        ∃ line r, (frameLine u).1 = .line line ∧ decodeLine line = .ok (.eof r)))

/-- R39 (marked derived in the spec) with R27 to R32: a step of the decode pass never changes the scan result, the entry
address or the buffer's size. -/
def Obligations.DecodePassKeepsScanResult : Prop :=
  ∀ s u t : State, blockTurn s = some u → u.phase = .decode → step s = .next t →
    t.minAddr = u.minAddr ∧ t.maxAddr = u.maxAddr ∧ t.totalSize = u.totalSize ∧
      t.entryAddr = u.entryAddr ∧ t.bufSize = u.bufSize ∧ t.bufGranted = u.bufGranted

/-- R250 (marked derived in the spec) with R245: a step that ends in ERROR has changed `err`, `phase` and, by framing,
`in_pos`, and nothing else. -/
def Obligations.ErrorsArePrecise : Prop :=
  ∀ s u t : State, blockTurn s = some u → u.phase ≠ .error → step s = .next t → t.phase = .error →
    t.err ≠ .none ∧ t = { u with inPos := t.inPos, err := t.err, phase := .error }

/-- R251: ERROR is left only by a SCAN, DECODE or RESET command; until then the block's registers do not change. -/
def Obligations.ErrorLeftOnlyByCommand : Prop :=
  ∀ s t : State, s.phase = .error → step s = .next t →
    (∃ p more, s.host.moves = .issue p :: more ∧ (p.cmd = .reset ∨ p.cmd = .scan ∨ p.cmd = .decode)) ∨
    t = { s with host := t.host }

/-- R9 and R24: the variant has no effect. Two states that differ only in the variant step to states that differ at
most in it. -/
def Obligations.VariantHasNoEffect : Prop :=
  ∀ (s t : State) (v : Variant), step s = .next t →
    ∃ w, step { s with variant := v } = .next { t with variant := w }

/-- Every call ends: from a sound state in the middle of a call, with the host issuing nothing, the call is over after
at most `2 * len + 3` steps, `len` being the input's length (R206, R283), where the host answers every request and its
input ends (R276). -/
def Obligations.EveryCallEnds : Prop :=
  ∀ s : State, Inv s → busy s = true → s.host.moves = [] → Answers s →
    ∃ k t, k ≤ 2 * s.host.input.bytes.length + 3 ∧ core.run k s = .next t ∧ callOver t

/-- R221 (marked derived in the spec), its last paragraph: from the start of a decode call, with the host issuing nothing
more, UnknownRecordType is never raised in the decode pass (once a buffer is granted). -/
def Obligations.UnknownTypeOnlyInScanPass : Prop :=
  ∀ (s t : State) (v : Variant) (ic : Bool) (n : Nat), s.host.moves = [] →
    core.run n (acceptDecode v ic s) = .next t → t.err = .unknownRecordType → t.bufGranted = false

/-- R221 (marked derived in the spec), its second paragraph: from the start of a decode call, with the host issuing
nothing more, a Data record met in the decode pass whose bytes do not run past the 32-bit space lies inside the buffer. -/
def Obligations.PlacementFitsWithoutWrap : Prop :=
  ∀ (s t : State) (v : Variant) (ic : Bool) (n : Nat) (line : List Byte) (pos : Nat) (r : Record),
    s.host.moves = [] → core.run n (acceptDecode v ic s) = .next t → t.phase = .decode →
    frameLine t = (.line line, pos) → decodeLine line = .ok (.data r) →
    (exactAddress r t + r.count ≤ 2 ^ 32 ∨ r.count = 0) →
    t.minAddr.toNat ≤ exactAddress r t ∧
      exactAddress r t - t.minAddr.toNat + r.count ≤ t.bufSize
end

