-- ==== Sys2Proof/Laws/Codec.lean ====
section
/-! SUPPORT. Laws/Codec.lean: the nibble codec and a line's characters (R120 to R125, R143 to R146). -/
namespace Sys2Proof

/-- R120: the result of `hexToNibble` is a nibble. -/
theorem hexToNibble_toNat_le (c : Byte) : (hexToNibble c).toNat ≤ 15 := by
  revert c; decide +kernel

/-- R125 (a). -/
@[simp] theorem decodeByte_encodeByte (b : Byte) :
    decodeByte (nibbleToHex (b >>> 4)) (nibbleToHex (b &&& 0x0F#8)) = b := by
  revert b; decide +kernel

/-- An emitted digit is no terminator (R91, R122). -/
theorem isTerminator_nibbleToHex (n : Byte) : isTerminator (nibbleToHex n) = false := by
  revert n; decide +kernel

/-- The pairs of encoded bytes are the bytes. -/
@[simp] theorem pairs_hexText (bs : List Byte) : pairs (hexText bs) = bs := by
  induction bs with
  | nil => rfl
  | cons b bs ih => simp [hexText, encodeByte, pairs, ih]

@[simp] theorem length_hexText (bs : List Byte) : (hexText bs).length = 2 * bs.length := by
  induction bs with
  | nil => rfl
  | cons b bs ih => simp [hexText, encodeByte, ih]; omega

theorem isTerminator_of_mem_hexText (bs : List Byte) (c : Byte) (h : c ∈ hexText bs) :
    isTerminator c = false := by
  induction bs with
  | nil => simp [hexText] at h
  | cons b bs ih =>
    simp only [hexText, encodeByte, List.cons_append, List.nil_append, List.mem_cons] at h
    rcases h with rfl | rfl | h
    · exact isTerminator_nibbleToHex _
    · exact isTerminator_nibbleToHex _
    · exact ih h

/-- The payload of an emitted line is its hex text (R144). -/
@[simp] theorem payload_lineText (bs : List Byte) : payload (lineText bs) = hexText bs := by
  have keep : ∀ (l : List Byte), (∀ c ∈ l, isTerminator c = false) →
      (l ++ [chLF]).takeWhile (fun c => !isTerminator c) = l := by
    intro l hl
    induction l with
    | nil => decide
    | cons a l ih =>
      have ha := hl a (by simp)
      simp [ha, ih (fun c hc => hl c (by simp [hc]))]
  exact keep _ (isTerminator_of_mem_hexText bs)

@[simp] theorem lineRec_lineText (bs : List Byte) : lineRec (lineText bs) = bs := by
  simp [lineRec]

/-- An emitted line of four or more record bytes is eligible (R143). -/
theorem eligible_lineText (bs : List Byte) (h : 4 ≤ bs.length) : eligible (lineText bs) = true := by
  simp [eligible, lineText, hdrMin]; omega

/-- The number of pairs of a payload (R146). -/
theorem length_pairs (p : List Byte) : (pairs p).length = p.length / 2 := by
  induction p using pairs.induct with
  | case1 c0 c1 rest ih => simp [pairs, ih]; omega
  | case2 => simp [pairs]
  | case3 => rfl

/-- A payload is shorter than its line (R144). -/
theorem length_payload_lt (line : List Byte) (h : line ≠ []) :
    (payload line).length + 1 ≤ line.length := by
  cases line with
  | nil => exact absurd rfl h
  | cons c rest => simpa [payload] using (List.takeWhile_sublist _).length_le

end Sys2Proof
end

