-- ==== Sys2Proof/Laws/Memory.lean ====
section
/-! SUPPORT. Laws/Memory.lean: what the image buffer's operations do (R63 to R66, R69, R73): a read after a write, the
other offsets, the canonical form, and which offsets are listed. -/
namespace Sys2Proof.Machine

@[simp] theorem memory_read_nil (off : Nat) : Memory.read [] off = none := rfl

theorem memory_read_cons (c : Host.Cell) (rest : Memory) (off : Nat) :
    Memory.read (c :: rest) off = if c.1 = off then some c.2 else Memory.read rest off := rfl

/-- A read of the offset just written gives the byte written. -/
@[simp] theorem memory_read_write_same (m : Memory) (off : Nat) (b : Byte) :
    Memory.read (Memory.write m off b) off = some b := by
  induction m with
  | nil => simp [Memory.write, memory_read_cons]
  | cons c rest ih =>
    unfold Memory.write
    split
    · simp [memory_read_cons]
    · split
      · simp [memory_read_cons]
      · simp [memory_read_cons, *]

/-- A write leaves every other offset alone. -/
theorem memory_read_write_other (m : Memory) (off : Nat) (b : Byte) (o : Nat) (h : o ≠ off) :
    Memory.read (Memory.write m off b) o = Memory.read m o := by
  induction m with
  | nil => simp [Memory.write, memory_read_cons, Ne.symm h]
  | cons c rest ih =>
    unfold Memory.write
    split
    · simp [memory_read_cons, Ne.symm h]
    · split
      · next hc => simp [memory_read_cons, hc, Ne.symm h]
      · simp [memory_read_cons, ih]

/-- The cells after a write: the one written, or a cell that was there. -/
theorem memory_mem_write (m : Memory) (off : Nat) (b : Byte) (c : Host.Cell)
    (h : c ∈ Memory.write m off b) : c = (off, b) ∨ c ∈ m := by
  induction m with
  | nil => simpa [Memory.write] using h
  | cons d rest ih =>
    unfold Memory.write at h
    split at h
    · simpa using h
    · split at h
      · rcases List.mem_cons.mp h with h | h
        · exact .inl h
        · exact .inr (List.mem_cons_of_mem _ h)
      · rcases List.mem_cons.mp h with h | h
        · exact .inr (h ▸ List.mem_cons_self)
        · rcases ih h with h | h
          · exact .inl h
          · exact .inr (List.mem_cons_of_mem _ h)

/-- A write keeps the canonical form. -/
theorem memory_wf_write (m : Memory) (off : Nat) (b : Byte) (h : Memory.wf m) :
    Memory.wf (Memory.write m off b) := by
  induction m with
  | nil => simp [Memory.write]
  | cons c rest ih =>
    obtain ⟨hc, hrest⟩ := List.pairwise_cons.mp h
    unfold Memory.write
    split
    · next hlt =>
      refine List.pairwise_cons.mpr ⟨?_, h⟩
      intro d hd
      rcases List.mem_cons.mp hd with rfl | hd
      · exact hlt
      · exact Nat.lt_trans hlt (hc d hd)
    · split
      · next heq => exact List.pairwise_cons.mpr ⟨fun d hd => heq ▸ hc d hd, hrest⟩
      · next hle hne =>
        refine List.pairwise_cons.mpr ⟨?_, ih hrest⟩
        intro d hd
        rcases memory_mem_write rest off b d hd with rfl | hd
        · show c.1 < off
          omega
        · exact hc d hd

/-- The bytes of one record, at their offsets (R65, R172). -/
theorem memory_read_writeBytes_inside (bs : List Byte) (m : Memory) (off k : Nat) (h : k < bs.length) :
    Memory.read (Memory.writeBytes m off bs) (off + k) = bs[k]? := by
  induction bs generalizing m off k with
  | nil => simp at h
  | cons b bs ih =>
    cases k with
    | zero =>
      have outside : ∀ (l : List Byte) (m' : Memory) (o p : Nat), p < o →
          Memory.read (Memory.writeBytes m' o l) p = Memory.read m' p := by
        intro l
        induction l with
        | nil => intro m' o p _; rfl
        | cons x xs ihx =>
          intro m' o p hp
          simp only [Memory.writeBytes]
          rw [ihx _ _ _ (by omega), memory_read_write_other _ _ _ _ (by omega)]
      simp only [Memory.writeBytes, Nat.add_zero]
      rw [outside _ _ _ _ (by omega)]
      simp
    | succ k =>
      simp only [Memory.writeBytes]
      have := ih (Memory.write m off b) (off + 1) k (by simpa using h)
      rw [show off + (k + 1) = off + 1 + k by omega, this]
      simp

/-- Every offset outside a record's bytes reads as before (R64, R172). -/
theorem memory_read_writeBytes_outside (bs : List Byte) (m : Memory) (off o : Nat)
    (h : o < off ∨ off + bs.length ≤ o) :
    Memory.read (Memory.writeBytes m off bs) o = Memory.read m o := by
  induction bs generalizing m off with
  | nil => rfl
  | cons b bs ih =>
    simp only [List.length_cons] at h
    simp only [Memory.writeBytes]
    rw [ih _ _ (by omega), memory_read_write_other _ _ _ _ (by omega)]

/-- The writes of a record keep the canonical form. -/
theorem memory_wf_writeBytes (bs : List Byte) (m : Memory) (off : Nat) (h : Memory.wf m) :
    Memory.wf (Memory.writeBytes m off bs) := by
  induction bs generalizing m off with
  | nil => exact h
  | cons b bs ih => exact ih _ _ (memory_wf_write m off b h)

/-- The cells after a record's writes: one at an offset of the record, or a cell that was there. -/
theorem memory_mem_writeBytes (bs : List Byte) (m : Memory) (off : Nat) (c : Host.Cell)
    (h : c ∈ Memory.writeBytes m off bs) : (off ≤ c.1 ∧ c.1 < off + bs.length) ∨ c ∈ m := by
  induction bs generalizing m off with
  | nil => exact .inr h
  | cons b bs ih =>
    rcases ih (Memory.write m off b) (off + 1) h with h | h
    · exact .inl (by simp only [List.length_cons]; omega)
    · rcases memory_mem_write m off b c h with rfl | h
      · exact .inl (by simp)
      · exact .inr h

end Sys2Proof.Machine
end

