-- ==== Sys2Proof/Laws/Record.lean ====
section
/-! SUPPORT. Laws/Record.lean: the record decoder and the record-type map (R92 to R96, R147). -/
namespace Sys2Proof

/-- R95: the type map keeps the type byte. -/
theorem typeByte_instrOfType (ty : Byte) (r : Record) : (instrOfType ty r).typeByte = ty := by
  unfold instrOfType
  repeat' split
  all_goals simp_all [Instr.typeByte]

theorem record_instrOfType (ty : Byte) (r : Record) : (instrOfType ty r).record = r := by
  unfold instrOfType
  repeat' split
  all_goals rfl

/-- Every type byte outside the rows before it is in the last row of the table. -/
theorem last_row (ty : Byte) (h0 : ty ≠ 0x00#8) (h1 : ty ≠ 0x01#8) (h2 : ty ≠ 0x02#8) (h3 : ty ≠ 0x03#8)
    (h4 : ty ≠ 0x04#8) (h5 : ty ≠ 0x05#8) (h6 : rowHolds 0xFE#8 0x06#8 ty = false)
    (h8 : rowHolds 0xF8#8 0x08#8 ty = false) (h10 : rowHolds 0xF0#8 0x10#8 ty = false)
    (h20 : rowHolds 0xE0#8 0x20#8 ty = false) (h40 : rowHolds 0xC0#8 0x40#8 ty = false) :
    rowHolds 0x80#8 0x80#8 ty = true := by
  revert ty; decide +kernel

theorem wellFormed_instrOfType (ty : Byte) (r : Record) (h : r.wellFormed = true) :
    (instrOfType ty r).wellFormed = true := by
  unfold instrOfType
  repeat' split
  all_goals simp_all [Instr.wellFormed]
  exact last_row ty (by assumption) (by assumption) (by assumption) (by assumption) (by assumption)
    (by assumption) (by assumption) (by assumption) (by assumption) (by assumption) (by assumption)

/-- What the record decoder answers on bytes long enough to hold a type (R93, R147). -/
theorem decodeRec_cons (bc a1 a0 ty : Byte) (rest : List Byte) :
    decodeRec (bc :: a1 :: a0 :: ty :: rest) =
      if bc.toNat + 1 ≤ rest.length then
        .ok (instrOfType ty
          { address := bigEndian16 a1 a0, data := rest.take bc.toNat, checksum := rest.getD bc.toNat 0#8 })
      else .error .tooShort := rfl

/-- The record decoder answers an instruction only for bytes of this shape. -/
theorem decodeRec_ok (rec : List Byte) (i : Instr) (h : decodeRec rec = .ok i) :
    ∃ bc a1 a0 ty rest, rec = bc :: a1 :: a0 :: ty :: rest ∧ bc.toNat + 1 ≤ rest.length ∧
      i = instrOfType ty
        { address := bigEndian16 a1 a0, data := rest.take bc.toNat, checksum := rest.getD bc.toNat 0#8 } := by
  match rec, h with
  | bc :: a1 :: a0 :: ty :: rest, h =>
    rw [decodeRec_cons] at h
    split at h
    · next hlen => exact ⟨bc, a1, a0, ty, rest, rfl, hlen, (Except.ok.inj h).symm⟩
    · cases h
  | [], h => cases h
  | [_], h => cases h
  | [_, _], h => cases h
  | [_, _, _], h => cases h

/-- The byteCount of a decoded record is its first byte (R93, R94). -/
theorem count_of_decodeRec (rec : List Byte) (i : Instr) (h : decodeRec rec = .ok i) :
    i.record.count = (rec.headD 0#8).toNat := by
  obtain ⟨bc, a1, a0, ty, rest, rfl, hlen, rfl⟩ := decodeRec_ok rec i h
  simp [record_instrOfType, Record.count]; omega

/-- The record decoder's only refusal is `tooShort` (R147). -/
theorem decodeRec_error (rec : List Byte) (e : DecodeError) (h : decodeRec rec = .error e) : e = .tooShort := by
  match rec, h with
  | bc :: a1 :: a0 :: ty :: rest, h =>
    rw [decodeRec_cons] at h
    split at h
    · cases h
    · exact (Except.error.inj h).symm
  | [], h => exact (Except.error.inj h).symm
  | [_], h => exact (Except.error.inj h).symm
  | [_, _], h => exact (Except.error.inj h).symm
  | [_, _, _], h => exact (Except.error.inj h).symm

/-- R67 (b), R93: the record address from its two bytes. -/
theorem toNat_bigEndian16 (hi lo : Byte) : (bigEndian16 hi lo).toNat = 256 * hi.toNat + lo.toNat := by
  have h1 := hi.isLt
  have h2 := lo.isLt
  have hor : bigEndian16 hi lo = (hi.setWidth 16 <<< 8) + lo.setWidth 16 := by
    unfold bigEndian16
    rw [BitVec.add_eq_or_of_and_eq_zero]
    ext k hk
    simp only [BitVec.getElem_and, BitVec.getElem_shiftLeft, BitVec.getElem_setWidth, BitVec.getElem_zero]
    by_cases hk8 : k < 8
    · simp [hk8]
    · simp [BitVec.getLsbD_of_ge lo k (by omega)]
  rw [hor, BitVec.toNat_add, BitVec.toNat_shiftLeft, BitVec.toNat_setWidth, BitVec.toNat_setWidth,
    Nat.shiftLeft_eq]
  omega

end Sys2Proof
end

