-- ==== Sys2Proof/Laws/State.lean ====
section
/-! SUPPORT. Laws/State.lean: what each update of the state does to each field, one lemma for each field and update,
true by unfolding, so that no later proof unfolds a record update. -/
namespace Sys2Proof.Machine

section RaiseFields
@[simp] theorem raise_phase (e : ErrKind) (s : State) : (raise e s).phase = .error := rfl
@[simp] theorem raise_call (e : ErrKind) (s : State) : (raise e s).call = s.call := rfl
@[simp] theorem raise_ignoreCs (e : ErrKind) (s : State) : (raise e s).ignoreCs = s.ignoreCs := rfl
@[simp] theorem raise_variant (e : ErrKind) (s : State) : (raise e s).variant = s.variant := rfl
@[simp] theorem raise_segBias (e : ErrKind) (s : State) : (raise e s).segBias = s.segBias := rfl
@[simp] theorem raise_linBias (e : ErrKind) (s : State) : (raise e s).linBias = s.linBias := rfl
@[simp] theorem raise_minAddr (e : ErrKind) (s : State) : (raise e s).minAddr = s.minAddr := rfl
@[simp] theorem raise_maxAddr (e : ErrKind) (s : State) : (raise e s).maxAddr = s.maxAddr := rfl
@[simp] theorem raise_totalSize (e : ErrKind) (s : State) : (raise e s).totalSize = s.totalSize := rfl
@[simp] theorem raise_entryAddr (e : ErrKind) (s : State) : (raise e s).entryAddr = s.entryAddr := rfl
@[simp] theorem raise_baseAddr (e : ErrKind) (s : State) : (raise e s).baseAddr = s.baseAddr := rfl
@[simp] theorem raise_bufSize (e : ErrKind) (s : State) : (raise e s).bufSize = s.bufSize := rfl
@[simp] theorem raise_inPos (e : ErrKind) (s : State) : (raise e s).inPos = s.inPos := rfl
@[simp] theorem raise_err (e : ErrKind) (s : State) : (raise e s).err = e := rfl
@[simp] theorem raise_bufGranted (e : ErrKind) (s : State) : (raise e s).bufGranted = s.bufGranted := rfl
@[simp] theorem raise_image (e : ErrKind) (s : State) : (raise e s).image = s.image := rfl
@[simp] theorem raise_longLinePolicy (e : ErrKind) (s : State) :
    (raise e s).longLinePolicy = s.longLinePolicy := rfl
@[simp] theorem raise_host (e : ErrKind) (s : State) : (raise e s).host = s.host := rfl
end RaiseFields

section CallStartFields
@[simp] theorem callStart_phase (s : State) : (callStart s).phase = s.phase := rfl
@[simp] theorem callStart_call (s : State) : (callStart s).call = s.call := rfl
@[simp] theorem callStart_ignoreCs (s : State) : (callStart s).ignoreCs = s.ignoreCs := rfl
@[simp] theorem callStart_variant (s : State) : (callStart s).variant = s.variant := rfl
@[simp] theorem callStart_segBias (s : State) : (callStart s).segBias = s.segBias := rfl
@[simp] theorem callStart_linBias (s : State) : (callStart s).linBias = s.linBias := rfl
@[simp] theorem callStart_minAddr (s : State) : (callStart s).minAddr = 0xFFFFFFFF#32 := rfl
@[simp] theorem callStart_maxAddr (s : State) : (callStart s).maxAddr = 0x00000000#32 := rfl
@[simp] theorem callStart_totalSize (s : State) : (callStart s).totalSize = 0x00000000#32 := rfl
@[simp] theorem callStart_entryAddr (s : State) : (callStart s).entryAddr = 0x00000000#32 := rfl
@[simp] theorem callStart_baseAddr (s : State) : (callStart s).baseAddr = 0x00000000#32 := rfl
@[simp] theorem callStart_bufSize (s : State) : (callStart s).bufSize = 0 := rfl
@[simp] theorem callStart_inPos (s : State) : (callStart s).inPos = s.inPos := rfl
@[simp] theorem callStart_err (s : State) : (callStart s).err = .none := rfl
@[simp] theorem callStart_bufGranted (s : State) : (callStart s).bufGranted = false := rfl
@[simp] theorem callStart_image (s : State) : (callStart s).image = [] := rfl
@[simp] theorem callStart_longLinePolicy (s : State) : (callStart s).longLinePolicy = s.longLinePolicy := rfl
@[simp] theorem callStart_host (s : State) : (callStart s).host = s.host := rfl
end CallStartFields

section PassStartFields
@[simp] theorem passStart_phase (s : State) : (passStart s).phase = s.phase := rfl
@[simp] theorem passStart_call (s : State) : (passStart s).call = s.call := rfl
@[simp] theorem passStart_ignoreCs (s : State) : (passStart s).ignoreCs = s.ignoreCs := rfl
@[simp] theorem passStart_variant (s : State) : (passStart s).variant = s.variant := rfl
@[simp] theorem passStart_segBias (s : State) : (passStart s).segBias = 0x00000000#32 := rfl
@[simp] theorem passStart_linBias (s : State) : (passStart s).linBias = 0x00000000#32 := rfl
@[simp] theorem passStart_minAddr (s : State) : (passStart s).minAddr = s.minAddr := rfl
@[simp] theorem passStart_maxAddr (s : State) : (passStart s).maxAddr = s.maxAddr := rfl
@[simp] theorem passStart_totalSize (s : State) : (passStart s).totalSize = s.totalSize := rfl
@[simp] theorem passStart_entryAddr (s : State) : (passStart s).entryAddr = s.entryAddr := rfl
@[simp] theorem passStart_baseAddr (s : State) : (passStart s).baseAddr = s.baseAddr := rfl
@[simp] theorem passStart_bufSize (s : State) : (passStart s).bufSize = s.bufSize := rfl
@[simp] theorem passStart_inPos (s : State) : (passStart s).inPos = 0 := rfl
@[simp] theorem passStart_err (s : State) : (passStart s).err = s.err := rfl
@[simp] theorem passStart_bufGranted (s : State) : (passStart s).bufGranted = s.bufGranted := rfl
@[simp] theorem passStart_image (s : State) : (passStart s).image = s.image := rfl
@[simp] theorem passStart_longLinePolicy (s : State) : (passStart s).longLinePolicy = s.longLinePolicy := rfl
@[simp] theorem passStart_host (s : State) : (passStart s).host = s.host := rfl
end PassStartFields

section DecodeEndFields
@[simp] theorem decodeEnd_phase (s : State) : (decodeEnd s).phase = .done := rfl
@[simp] theorem decodeEnd_call (s : State) : (decodeEnd s).call = s.call := rfl
@[simp] theorem decodeEnd_ignoreCs (s : State) : (decodeEnd s).ignoreCs = s.ignoreCs := rfl
@[simp] theorem decodeEnd_variant (s : State) : (decodeEnd s).variant = s.variant := rfl
@[simp] theorem decodeEnd_segBias (s : State) : (decodeEnd s).segBias = s.segBias := rfl
@[simp] theorem decodeEnd_linBias (s : State) : (decodeEnd s).linBias = s.linBias := rfl
@[simp] theorem decodeEnd_minAddr (s : State) : (decodeEnd s).minAddr = s.minAddr := rfl
@[simp] theorem decodeEnd_maxAddr (s : State) : (decodeEnd s).maxAddr = s.maxAddr := rfl
@[simp] theorem decodeEnd_totalSize (s : State) : (decodeEnd s).totalSize = s.totalSize := rfl
@[simp] theorem decodeEnd_entryAddr (s : State) : (decodeEnd s).entryAddr = s.entryAddr := rfl
@[simp] theorem decodeEnd_baseAddr (s : State) : (decodeEnd s).baseAddr = s.minAddr := rfl
@[simp] theorem decodeEnd_bufSize (s : State) : (decodeEnd s).bufSize = s.bufSize := rfl
@[simp] theorem decodeEnd_inPos (s : State) : (decodeEnd s).inPos = s.inPos := rfl
@[simp] theorem decodeEnd_err (s : State) : (decodeEnd s).err = s.err := rfl
@[simp] theorem decodeEnd_bufGranted (s : State) : (decodeEnd s).bufGranted = s.bufGranted := rfl
@[simp] theorem decodeEnd_image (s : State) : (decodeEnd s).image = s.image := rfl
@[simp] theorem decodeEnd_longLinePolicy (s : State) : (decodeEnd s).longLinePolicy = s.longLinePolicy := rfl
@[simp] theorem decodeEnd_host (s : State) : (decodeEnd s).host = s.host := rfl
end DecodeEndFields

section ScanDataFields
@[simp] theorem scanData_phase (r : Record) (s : State) : (scanData r s).phase = s.phase := rfl
@[simp] theorem scanData_call (r : Record) (s : State) : (scanData r s).call = s.call := rfl
@[simp] theorem scanData_ignoreCs (r : Record) (s : State) : (scanData r s).ignoreCs = s.ignoreCs := rfl
@[simp] theorem scanData_variant (r : Record) (s : State) : (scanData r s).variant = s.variant := rfl
@[simp] theorem scanData_segBias (r : Record) (s : State) : (scanData r s).segBias = s.segBias := rfl
@[simp] theorem scanData_linBias (r : Record) (s : State) : (scanData r s).linBias = s.linBias := rfl
@[simp] theorem scanData_minAddr (r : Record) (s : State) :
    (scanData r s).minAddr = wordMin s.minAddr (effectiveAddress r.address s) := rfl
@[simp] theorem scanData_maxAddr (r : Record) (s : State) :
    (scanData r s).maxAddr = wordMax s.maxAddr (maxCandidate (effectiveAddress r.address s) r) := rfl
@[simp] theorem scanData_totalSize (r : Record) (s : State) :
    (scanData r s).totalSize = s.totalSize + countWord r := rfl
@[simp] theorem scanData_entryAddr (r : Record) (s : State) : (scanData r s).entryAddr = s.entryAddr := rfl
@[simp] theorem scanData_baseAddr (r : Record) (s : State) : (scanData r s).baseAddr = s.baseAddr := rfl
@[simp] theorem scanData_bufSize (r : Record) (s : State) : (scanData r s).bufSize = s.bufSize := rfl
@[simp] theorem scanData_inPos (r : Record) (s : State) : (scanData r s).inPos = s.inPos := rfl
@[simp] theorem scanData_err (r : Record) (s : State) : (scanData r s).err = s.err := rfl
@[simp] theorem scanData_bufGranted (r : Record) (s : State) : (scanData r s).bufGranted = s.bufGranted := rfl
@[simp] theorem scanData_image (r : Record) (s : State) : (scanData r s).image = s.image := rfl
@[simp] theorem scanData_longLinePolicy (r : Record) (s : State) :
    (scanData r s).longLinePolicy = s.longLinePolicy := rfl
@[simp] theorem scanData_host (r : Record) (s : State) : (scanData r s).host = s.host := rfl
end ScanDataFields

section StartDecodePassFields
@[simp] theorem startDecodePass_phase (n : Nat) (s : State) : (startDecodePass n s).phase = .decode := rfl
@[simp] theorem startDecodePass_call (n : Nat) (s : State) : (startDecodePass n s).call = s.call := rfl
@[simp] theorem startDecodePass_ignoreCs (n : Nat) (s : State) :
    (startDecodePass n s).ignoreCs = s.ignoreCs := rfl
@[simp] theorem startDecodePass_variant (n : Nat) (s : State) :
    (startDecodePass n s).variant = s.variant := rfl
@[simp] theorem startDecodePass_segBias (n : Nat) (s : State) :
    (startDecodePass n s).segBias = 0x00000000#32 := rfl
@[simp] theorem startDecodePass_linBias (n : Nat) (s : State) :
    (startDecodePass n s).linBias = 0x00000000#32 := rfl
@[simp] theorem startDecodePass_minAddr (n : Nat) (s : State) :
    (startDecodePass n s).minAddr = s.minAddr := rfl
@[simp] theorem startDecodePass_maxAddr (n : Nat) (s : State) :
    (startDecodePass n s).maxAddr = s.maxAddr := rfl
@[simp] theorem startDecodePass_totalSize (n : Nat) (s : State) :
    (startDecodePass n s).totalSize = s.totalSize := rfl
@[simp] theorem startDecodePass_entryAddr (n : Nat) (s : State) :
    (startDecodePass n s).entryAddr = s.entryAddr := rfl
@[simp] theorem startDecodePass_baseAddr (n : Nat) (s : State) :
    (startDecodePass n s).baseAddr = s.baseAddr := rfl
@[simp] theorem startDecodePass_bufSize (n : Nat) (s : State) : (startDecodePass n s).bufSize = n := rfl
@[simp] theorem startDecodePass_inPos (n : Nat) (s : State) : (startDecodePass n s).inPos = 0 := rfl
@[simp] theorem startDecodePass_err (n : Nat) (s : State) : (startDecodePass n s).err = s.err := rfl
@[simp] theorem startDecodePass_bufGranted (n : Nat) (s : State) :
    (startDecodePass n s).bufGranted = true := rfl
@[simp] theorem startDecodePass_image (n : Nat) (s : State) : (startDecodePass n s).image = [] := rfl
@[simp] theorem startDecodePass_longLinePolicy (n : Nat) (s : State) :
    (startDecodePass n s).longLinePolicy = s.longLinePolicy := rfl
@[simp] theorem startDecodePass_host (n : Nat) (s : State) : (startDecodePass n s).host = s.host := rfl
end StartDecodePassFields

section DropMoveFields
@[simp] theorem dropMove_phase (s : State) : (dropMove s).phase = s.phase := rfl
@[simp] theorem dropMove_call (s : State) : (dropMove s).call = s.call := rfl
@[simp] theorem dropMove_ignoreCs (s : State) : (dropMove s).ignoreCs = s.ignoreCs := rfl
@[simp] theorem dropMove_variant (s : State) : (dropMove s).variant = s.variant := rfl
@[simp] theorem dropMove_segBias (s : State) : (dropMove s).segBias = s.segBias := rfl
@[simp] theorem dropMove_linBias (s : State) : (dropMove s).linBias = s.linBias := rfl
@[simp] theorem dropMove_minAddr (s : State) : (dropMove s).minAddr = s.minAddr := rfl
@[simp] theorem dropMove_maxAddr (s : State) : (dropMove s).maxAddr = s.maxAddr := rfl
@[simp] theorem dropMove_totalSize (s : State) : (dropMove s).totalSize = s.totalSize := rfl
@[simp] theorem dropMove_entryAddr (s : State) : (dropMove s).entryAddr = s.entryAddr := rfl
@[simp] theorem dropMove_baseAddr (s : State) : (dropMove s).baseAddr = s.baseAddr := rfl
@[simp] theorem dropMove_bufSize (s : State) : (dropMove s).bufSize = s.bufSize := rfl
@[simp] theorem dropMove_inPos (s : State) : (dropMove s).inPos = s.inPos := rfl
@[simp] theorem dropMove_err (s : State) : (dropMove s).err = s.err := rfl
@[simp] theorem dropMove_bufGranted (s : State) : (dropMove s).bufGranted = s.bufGranted := rfl
@[simp] theorem dropMove_image (s : State) : (dropMove s).image = s.image := rfl
@[simp] theorem dropMove_longLinePolicy (s : State) : (dropMove s).longLinePolicy = s.longLinePolicy := rfl
@[simp] theorem dropMove_host (s : State) :
    (dropMove s).host = { s.host with moves := s.host.moves.tail } := rfl
end DropMoveFields

section PresentFields
@[simp] theorem present_phase (input : HostInput) (answer : AllocAnswer) (s : State) :
    (present input answer s).phase = s.phase := rfl
@[simp] theorem present_call (input : HostInput) (answer : AllocAnswer) (s : State) :
    (present input answer s).call = s.call := rfl
@[simp] theorem present_ignoreCs (input : HostInput) (answer : AllocAnswer) (s : State) :
    (present input answer s).ignoreCs = s.ignoreCs := rfl
@[simp] theorem present_variant (input : HostInput) (answer : AllocAnswer) (s : State) :
    (present input answer s).variant = s.variant := rfl
@[simp] theorem present_segBias (input : HostInput) (answer : AllocAnswer) (s : State) :
    (present input answer s).segBias = s.segBias := rfl
@[simp] theorem present_linBias (input : HostInput) (answer : AllocAnswer) (s : State) :
    (present input answer s).linBias = s.linBias := rfl
@[simp] theorem present_minAddr (input : HostInput) (answer : AllocAnswer) (s : State) :
    (present input answer s).minAddr = s.minAddr := rfl
@[simp] theorem present_maxAddr (input : HostInput) (answer : AllocAnswer) (s : State) :
    (present input answer s).maxAddr = s.maxAddr := rfl
@[simp] theorem present_totalSize (input : HostInput) (answer : AllocAnswer) (s : State) :
    (present input answer s).totalSize = s.totalSize := rfl
@[simp] theorem present_entryAddr (input : HostInput) (answer : AllocAnswer) (s : State) :
    (present input answer s).entryAddr = s.entryAddr := rfl
@[simp] theorem present_baseAddr (input : HostInput) (answer : AllocAnswer) (s : State) :
    (present input answer s).baseAddr = s.baseAddr := rfl
@[simp] theorem present_bufSize (input : HostInput) (answer : AllocAnswer) (s : State) :
    (present input answer s).bufSize = s.bufSize := rfl
@[simp] theorem present_inPos (input : HostInput) (answer : AllocAnswer) (s : State) :
    (present input answer s).inPos = s.inPos := rfl
@[simp] theorem present_err (input : HostInput) (answer : AllocAnswer) (s : State) :
    (present input answer s).err = s.err := rfl
@[simp] theorem present_bufGranted (input : HostInput) (answer : AllocAnswer) (s : State) :
    (present input answer s).bufGranted = s.bufGranted := rfl
@[simp] theorem present_image (input : HostInput) (answer : AllocAnswer) (s : State) :
    (present input answer s).image = s.image := rfl
@[simp] theorem present_longLinePolicy (input : HostInput) (answer : AllocAnswer) (s : State) :
    (present input answer s).longLinePolicy = s.longLinePolicy := rfl
@[simp] theorem present_host (input : HostInput) (answer : AllocAnswer) (s : State) :
    (present input answer s).host = { s.host with input := input, allocAnswer := answer } := rfl
end PresentFields

section AtPosFields
@[simp] theorem atPos_phase (s : State) (pos : Nat) : (atPos s pos).phase = s.phase := rfl
@[simp] theorem atPos_call (s : State) (pos : Nat) : (atPos s pos).call = s.call := rfl
@[simp] theorem atPos_ignoreCs (s : State) (pos : Nat) : (atPos s pos).ignoreCs = s.ignoreCs := rfl
@[simp] theorem atPos_variant (s : State) (pos : Nat) : (atPos s pos).variant = s.variant := rfl
@[simp] theorem atPos_segBias (s : State) (pos : Nat) : (atPos s pos).segBias = s.segBias := rfl
@[simp] theorem atPos_linBias (s : State) (pos : Nat) : (atPos s pos).linBias = s.linBias := rfl
@[simp] theorem atPos_minAddr (s : State) (pos : Nat) : (atPos s pos).minAddr = s.minAddr := rfl
@[simp] theorem atPos_maxAddr (s : State) (pos : Nat) : (atPos s pos).maxAddr = s.maxAddr := rfl
@[simp] theorem atPos_totalSize (s : State) (pos : Nat) : (atPos s pos).totalSize = s.totalSize := rfl
@[simp] theorem atPos_entryAddr (s : State) (pos : Nat) : (atPos s pos).entryAddr = s.entryAddr := rfl
@[simp] theorem atPos_baseAddr (s : State) (pos : Nat) : (atPos s pos).baseAddr = s.baseAddr := rfl
@[simp] theorem atPos_bufSize (s : State) (pos : Nat) : (atPos s pos).bufSize = s.bufSize := rfl
@[simp] theorem atPos_inPos (s : State) (pos : Nat) : (atPos s pos).inPos = pos := rfl
@[simp] theorem atPos_err (s : State) (pos : Nat) : (atPos s pos).err = s.err := rfl
@[simp] theorem atPos_bufGranted (s : State) (pos : Nat) : (atPos s pos).bufGranted = s.bufGranted := rfl
@[simp] theorem atPos_image (s : State) (pos : Nat) : (atPos s pos).image = s.image := rfl
@[simp] theorem atPos_longLinePolicy (s : State) (pos : Nat) :
    (atPos s pos).longLinePolicy = s.longLinePolicy := rfl
@[simp] theorem atPos_host (s : State) (pos : Nat) : (atPos s pos).host = s.host := rfl
end AtPosFields

section AcceptScanFields
@[simp] theorem acceptScan_phase (v : Variant) (s : State) : (acceptScan v s).phase = .scan := rfl
@[simp] theorem acceptScan_call (v : Variant) (s : State) : (acceptScan v s).call = .scanCall := rfl
@[simp] theorem acceptScan_ignoreCs (v : Variant) (s : State) : (acceptScan v s).ignoreCs = false := rfl
@[simp] theorem acceptScan_variant (v : Variant) (s : State) : (acceptScan v s).variant = v := rfl
@[simp] theorem acceptScan_segBias (v : Variant) (s : State) : (acceptScan v s).segBias = 0x00000000#32 := rfl
@[simp] theorem acceptScan_linBias (v : Variant) (s : State) : (acceptScan v s).linBias = 0x00000000#32 := rfl
@[simp] theorem acceptScan_minAddr (v : Variant) (s : State) : (acceptScan v s).minAddr = 0xFFFFFFFF#32 := rfl
@[simp] theorem acceptScan_maxAddr (v : Variant) (s : State) : (acceptScan v s).maxAddr = 0x00000000#32 := rfl
@[simp] theorem acceptScan_totalSize (v : Variant) (s : State) :
    (acceptScan v s).totalSize = 0x00000000#32 := rfl
@[simp] theorem acceptScan_entryAddr (v : Variant) (s : State) :
    (acceptScan v s).entryAddr = 0x00000000#32 := rfl
@[simp] theorem acceptScan_baseAddr (v : Variant) (s : State) :
    (acceptScan v s).baseAddr = 0x00000000#32 := rfl
@[simp] theorem acceptScan_bufSize (v : Variant) (s : State) : (acceptScan v s).bufSize = 0 := rfl
@[simp] theorem acceptScan_inPos (v : Variant) (s : State) : (acceptScan v s).inPos = 0 := rfl
@[simp] theorem acceptScan_err (v : Variant) (s : State) : (acceptScan v s).err = .none := rfl
@[simp] theorem acceptScan_bufGranted (v : Variant) (s : State) : (acceptScan v s).bufGranted = false := rfl
@[simp] theorem acceptScan_image (v : Variant) (s : State) : (acceptScan v s).image = [] := rfl
@[simp] theorem acceptScan_longLinePolicy (v : Variant) (s : State) :
    (acceptScan v s).longLinePolicy = s.longLinePolicy := rfl
@[simp] theorem acceptScan_host (v : Variant) (s : State) : (acceptScan v s).host = s.host := rfl
end AcceptScanFields

section AcceptDecodeFields
@[simp] theorem acceptDecode_phase (v : Variant) (ic : Bool) (s : State) :
    (acceptDecode v ic s).phase = .scan := rfl
@[simp] theorem acceptDecode_call (v : Variant) (ic : Bool) (s : State) :
    (acceptDecode v ic s).call = .decodeCall := rfl
@[simp] theorem acceptDecode_ignoreCs (v : Variant) (ic : Bool) (s : State) :
    (acceptDecode v ic s).ignoreCs = ic := rfl
@[simp] theorem acceptDecode_variant (v : Variant) (ic : Bool) (s : State) :
    (acceptDecode v ic s).variant = v := rfl
@[simp] theorem acceptDecode_segBias (v : Variant) (ic : Bool) (s : State) :
    (acceptDecode v ic s).segBias = 0x00000000#32 := rfl
@[simp] theorem acceptDecode_linBias (v : Variant) (ic : Bool) (s : State) :
    (acceptDecode v ic s).linBias = 0x00000000#32 := rfl
@[simp] theorem acceptDecode_minAddr (v : Variant) (ic : Bool) (s : State) :
    (acceptDecode v ic s).minAddr = 0xFFFFFFFF#32 := rfl
@[simp] theorem acceptDecode_maxAddr (v : Variant) (ic : Bool) (s : State) :
    (acceptDecode v ic s).maxAddr = 0x00000000#32 := rfl
@[simp] theorem acceptDecode_totalSize (v : Variant) (ic : Bool) (s : State) :
    (acceptDecode v ic s).totalSize = 0x00000000#32 := rfl
@[simp] theorem acceptDecode_entryAddr (v : Variant) (ic : Bool) (s : State) :
    (acceptDecode v ic s).entryAddr = 0x00000000#32 := rfl
@[simp] theorem acceptDecode_baseAddr (v : Variant) (ic : Bool) (s : State) :
    (acceptDecode v ic s).baseAddr = 0x00000000#32 := rfl
@[simp] theorem acceptDecode_bufSize (v : Variant) (ic : Bool) (s : State) :
    (acceptDecode v ic s).bufSize = 0 := rfl
@[simp] theorem acceptDecode_inPos (v : Variant) (ic : Bool) (s : State) :
    (acceptDecode v ic s).inPos = 0 := rfl
@[simp] theorem acceptDecode_err (v : Variant) (ic : Bool) (s : State) :
    (acceptDecode v ic s).err = .none := rfl
@[simp] theorem acceptDecode_bufGranted (v : Variant) (ic : Bool) (s : State) :
    (acceptDecode v ic s).bufGranted = false := rfl
@[simp] theorem acceptDecode_image (v : Variant) (ic : Bool) (s : State) :
    (acceptDecode v ic s).image = [] := rfl
@[simp] theorem acceptDecode_longLinePolicy (v : Variant) (ic : Bool) (s : State) :
    (acceptDecode v ic s).longLinePolicy = s.longLinePolicy := rfl
@[simp] theorem acceptDecode_host (v : Variant) (ic : Bool) (s : State) :
    (acceptDecode v ic s).host = s.host := rfl
end AcceptDecodeFields

section ResetBlockFields
@[simp] theorem resetBlock_phase (s : State) : (resetBlock s).phase = State.reset.phase := rfl
@[simp] theorem resetBlock_call (s : State) : (resetBlock s).call = State.reset.call := rfl
@[simp] theorem resetBlock_ignoreCs (s : State) : (resetBlock s).ignoreCs = State.reset.ignoreCs := rfl
@[simp] theorem resetBlock_variant (s : State) : (resetBlock s).variant = State.reset.variant := rfl
@[simp] theorem resetBlock_segBias (s : State) : (resetBlock s).segBias = State.reset.segBias := rfl
@[simp] theorem resetBlock_linBias (s : State) : (resetBlock s).linBias = State.reset.linBias := rfl
@[simp] theorem resetBlock_minAddr (s : State) : (resetBlock s).minAddr = State.reset.minAddr := rfl
@[simp] theorem resetBlock_maxAddr (s : State) : (resetBlock s).maxAddr = State.reset.maxAddr := rfl
@[simp] theorem resetBlock_totalSize (s : State) : (resetBlock s).totalSize = State.reset.totalSize := rfl
@[simp] theorem resetBlock_entryAddr (s : State) : (resetBlock s).entryAddr = State.reset.entryAddr := rfl
@[simp] theorem resetBlock_baseAddr (s : State) : (resetBlock s).baseAddr = State.reset.baseAddr := rfl
@[simp] theorem resetBlock_bufSize (s : State) : (resetBlock s).bufSize = State.reset.bufSize := rfl
@[simp] theorem resetBlock_inPos (s : State) : (resetBlock s).inPos = State.reset.inPos := rfl
@[simp] theorem resetBlock_err (s : State) : (resetBlock s).err = State.reset.err := rfl
@[simp] theorem resetBlock_bufGranted (s : State) : (resetBlock s).bufGranted = State.reset.bufGranted := rfl
@[simp] theorem resetBlock_image (s : State) : (resetBlock s).image = State.reset.image := rfl
@[simp] theorem resetBlock_longLinePolicy (s : State) :
    (resetBlock s).longLinePolicy = s.longLinePolicy := rfl
@[simp] theorem resetBlock_host (s : State) : (resetBlock s).host = s.host := rfl
end ResetBlockFields

end Sys2Proof.Machine
end

