-- ==== Sys2Proof/Laws/Ops.lean ====
section
/-! SUPPORT. Laws/Ops.lean: everything a shared operation or a record's meaning can do, said once, for later proofs to
cite instead of unfolding. -/
namespace Sys2Proof.Machine

/-- R141, R147, R179: a malformed line in the decode pass. -/
theorem malformed_of_decode (s : State) (h : s.phase = .decode) : malformed s = raise .badHexData s := by
  simp [malformed, h]

/-- R141, R147, R179: a malformed line elsewhere changes nothing. -/
theorem malformed_of_not_decode (s : State) (h : s.phase ≠ .decode) : malformed s = s := by
  simp [malformed, h]

theorem malformed_cases (s : State) :
    (s.phase = .decode ∧ malformed s = raise .badHexData s) ∨ (s.phase ≠ .decode ∧ malformed s = s) := by
  by_cases h : s.phase = .decode
  · exact .inl ⟨h, malformed_of_decode s h⟩
  · exact .inr ⟨h, malformed_of_not_decode s h⟩

theorem endPass_of_scanCall (s : State) (h : s.phase = .scan) (hc : s.call = .scanCall) :
    endPass s = { s with phase := .done } := by
  simp [endPass, h, hc]

theorem endPass_of_decodeCall (s : State) (h : s.phase = .scan) (hc : s.call = .decodeCall) :
    endPass s = { s with phase := .alloc } := by
  simp [endPass, h, hc]

theorem endPass_of_decode (s : State) (h : s.phase = .decode) : endPass s = decodeEnd s := by
  simp [endPass, h]

/-- R207: the three ends of a pass, and nothing where R207 names none (log 9). -/
theorem endPass_cases (s : State) :
    (s.phase = .scan ∧ s.call = .scanCall ∧ endPass s = { s with phase := .done }) ∨
    (s.phase = .scan ∧ s.call = .decodeCall ∧ endPass s = { s with phase := .alloc }) ∨
    (s.phase = .decode ∧ endPass s = decodeEnd s) ∨
    ((s.phase = .scan → s.call = .none) ∧ s.phase ≠ .decode ∧ endPass s = s) := by
  rcases hp : s.phase <;> rcases hc : s.call <;> simp [endPass, hp, hc]

/-- R172: the placement of a Data record is inside the buffer exactly when an offset exists. -/
theorem dataOffset_eq_some (r : Record) (s : State) (off : Nat) :
    dataOffset r s = some off ↔
      s.minAddr.toNat ≤ (effectiveAddress r.address s).toNat ∧
      off = (effectiveAddress r.address s).toNat - s.minAddr.toNat ∧ off + r.count ≤ s.bufSize := by
  unfold dataOffset
  simp only
  split
  · simp; omega
  · split
    · simp; omega
    · simp; omega

theorem dataOffset_eq_none (r : Record) (s : State) :
    dataOffset r s = none ↔
      (effectiveAddress r.address s).toNat < s.minAddr.toNat ∨
      s.bufSize < (effectiveAddress r.address s).toNat - s.minAddr.toNat + r.count := by
  unfold dataOffset
  simp only
  split
  · simp [*]
  · split <;> simp [*]

/-- R172: the two outcomes of a Data record in the decode pass. -/
theorem placeData_cases (r : Record) (s : State) :
    (dataOffset r s = none ∧ placeData r s = raise .bufferBound s) ∨
    ∃ off, dataOffset r s = some off ∧
      placeData r s = { s with image := Memory.writeBytes s.image off r.data } := by
  cases h : dataOffset r s with
  | none => exact .inl ⟨rfl, by simp [placeData, h]⟩
  | some off => exact .inr ⟨off, rfl, by simp [placeData, h]⟩

/-- What an instruction's own effect can be, apart from where it goes wrong. -/
inductive ExecResult (s t : State) : Instr → Prop where
  | scanData (r : Record) (h : s.phase = .scan) (ht : t = scanData r s) : ExecResult s t (.data r)
  | placed (r : Record) (off : Nat) (h : s.phase ≠ .scan) (ho : dataOffset r s = some off)
      (ht : t = { s with image := Memory.writeBytes s.image off r.data }) : ExecResult s t (.data r)
  | outside (r : Record) (h : s.phase ≠ .scan) (ho : dataOffset r s = none)
      (ht : t = raise .bufferBound s) : ExecResult s t (.data r)
  | endPass (r : Record) (ht : t = endPass s) : ExecResult s t (.eof r)
  | segBias (r : Record) (d0 d1 : Byte) (more : List Byte) (hd : r.data = d0 :: d1 :: more)
      (ht : t = { s with segBias := segmentBiasOf d0 d1 }) : ExecResult s t (.esa r)
  | shortEsa (r : Record) (hd : r.count < 2) (ht : t = malformed s) : ExecResult s t (.esa r)
  | linBias (r : Record) (d0 d1 : Byte) (more : List Byte) (hd : r.data = d0 :: d1 :: more)
      (ht : t = { s with linBias := linearBiasOf d0 d1 }) : ExecResult s t (.ela r)
  | shortEla (r : Record) (hd : r.count < 2) (ht : t = malformed s) : ExecResult s t (.ela r)
  | startSeg (r : Record) (ht : t = s) : ExecResult s t (.sa r)
  | startLin (r : Record) (ht : t = s) : ExecResult s t (.sla r)
  | reserved (i : Instr) (hu : (∃ ty r, i = .unknown06_07 ty r ∨ i = .unknown08_0F ty r ∨
        i = .unknown10_1F ty r ∨ i = .unknown20_3F ty r ∨ i = .unknown40_7F ty r ∨ i = .unknown80_FF ty r))
      (ht : t = raise .unknownRecordType s) : ExecResult s t i

/-- R180: everything dispatch can do. -/
theorem exec_result (i : Instr) (s : State) : ∃ t, exec i s = .next t ∧ ExecResult s t i := by
  cases i with
  | data r =>
    by_cases h : s.phase = .scan
    · exact ⟨_, by simp [exec, execData, h], .scanData r h rfl⟩
    · rcases placeData_cases r s with ⟨ho, hp⟩ | ⟨off, ho, hp⟩
      · exact ⟨_, by simp [exec, execData, h, hp], .outside r h ho rfl⟩
      · exact ⟨_, by simp [exec, execData, h, hp], .placed r off h ho rfl⟩
  | eof r => exact ⟨_, rfl, .endPass r rfl⟩
  | esa r =>
    match hd : r.data with
    | [] => exact ⟨_, by simp [exec, execEsa, hd], .shortEsa r (by simp [Record.count, hd]) rfl⟩
    | [_] => exact ⟨_, by simp [exec, execEsa, hd], .shortEsa r (by simp [Record.count, hd]) rfl⟩
    | d0 :: d1 :: more => exact ⟨_, by simp [exec, execEsa, hd], .segBias r d0 d1 more hd rfl⟩
  | sa r => exact ⟨_, rfl, .startSeg r rfl⟩
  | ela r =>
    match hd : r.data with
    | [] => exact ⟨_, by simp [exec, execEla, hd], .shortEla r (by simp [Record.count, hd]) rfl⟩
    | [_] => exact ⟨_, by simp [exec, execEla, hd], .shortEla r (by simp [Record.count, hd]) rfl⟩
    | d0 :: d1 :: more => exact ⟨_, by simp [exec, execEla, hd], .linBias r d0 d1 more hd rfl⟩
  | sla r => exact ⟨_, rfl, .startLin r rfl⟩
  | unknown06_07 ty r => exact ⟨_, rfl, .reserved _ ⟨ty, r, by simp⟩ rfl⟩
  | unknown08_0F ty r => exact ⟨_, rfl, .reserved _ ⟨ty, r, by simp⟩ rfl⟩
  | unknown10_1F ty r => exact ⟨_, rfl, .reserved _ ⟨ty, r, by simp⟩ rfl⟩
  | unknown20_3F ty r => exact ⟨_, rfl, .reserved _ ⟨ty, r, by simp⟩ rfl⟩
  | unknown40_7F ty r => exact ⟨_, rfl, .reserved _ ⟨ty, r, by simp⟩ rfl⟩
  | unknown80_FF ty r => exact ⟨_, rfl, .reserved _ ⟨ty, r, by simp⟩ rfl⟩

/-- The same, for a next state at hand. -/
theorem exec_next (i : Instr) (s t : State) (h : exec i s = .next t) : ExecResult s t i := by
  obtain ⟨t', ht', hr⟩ := exec_result i s
  rw [h] at ht'
  cases ht'
  exact hr

/-! ### Operand values (R97, R98, R170) -/

/-- R170 as an exact sum reduced once. -/
theorem toNat_effectiveAddress (address : Word16) (s : State) :
    (effectiveAddress address s).toNat =
      (address.toNat + s.segBias.toNat + s.linBias.toNat) % 2 ^ 32 := by
  have := address.isLt
  simp only [effectiveAddress, BitVec.toNat_add, BitVec.toNat_setWidth]
  omega

theorem toNat_countWord (r : Record) : (countWord r).toNat = r.count % 2 ^ 32 := by
  simp [countWord]

theorem toNat_wordMin (a b : Word32) : (wordMin a b).toNat = min a.toNat b.toNat := by
  unfold wordMin; split <;> omega

theorem toNat_wordMax (a b : Word32) : (wordMax a b).toNat = max a.toNat b.toNat := by
  unfold wordMax; split <;> omega

/-- R171: the candidate as an exact sum reduced once. -/
theorem toNat_maxCandidate (ea : Word32) (r : Record) :
    (maxCandidate ea r).toNat = (ea.toNat + r.count + (2 ^ 32 - 1)) % 2 ^ 32 := by
  simp only [maxCandidate, BitVec.toNat_sub, BitVec.toNat_add, toNat_countWord, BitVec.toNat_ofNat]
  omega

/-- R97: the operand is the 16-bit big-endian value shifted left by 4. -/
theorem segmentBiasOf_eq (d0 d1 : Byte) :
    segmentBiasOf d0 d1 = BitVec.ofNat 32 ((256 * d0.toNat + d1.toNat) * 16) := by
  have h0 := d0.isLt
  have h1 := d1.isLt
  have hor : segmentBiasOf d0 d1 = (d0.setWidth 32 <<< 12) + (d1.setWidth 32 <<< 4) := by
    unfold segmentBiasOf
    rw [BitVec.add_eq_or_of_and_eq_zero]
    ext k hk
    simp only [BitVec.getElem_and, BitVec.getElem_shiftLeft, BitVec.getElem_setWidth, BitVec.getElem_zero]
    by_cases hk12 : k < 12
    · simp [hk12]
    · simp [BitVec.getLsbD_of_ge d1 (k - 4) (by omega)]
  rw [hor]
  apply BitVec.eq_of_toNat_eq
  simp only [BitVec.toNat_add, BitVec.toNat_shiftLeft, BitVec.toNat_setWidth, Nat.shiftLeft_eq,
    BitVec.toNat_ofNat]
  omega

/-- R98: the operand is the 16-bit big-endian value shifted left by 16. -/
theorem linearBiasOf_eq (d0 d1 : Byte) :
    linearBiasOf d0 d1 = BitVec.ofNat 32 ((256 * d0.toNat + d1.toNat) * 2 ^ 16) := by
  have h0 := d0.isLt
  have h1 := d1.isLt
  have hor : linearBiasOf d0 d1 = (d0.setWidth 32 <<< 24) + (d1.setWidth 32 <<< 16) := by
    unfold linearBiasOf
    rw [BitVec.add_eq_or_of_and_eq_zero]
    ext k hk
    simp only [BitVec.getElem_and, BitVec.getElem_shiftLeft, BitVec.getElem_setWidth, BitVec.getElem_zero]
    by_cases hk24 : k < 24
    · simp [hk24]
    · simp [BitVec.getLsbD_of_ge d1 (k - 16) (by omega)]
  rw [hor]
  apply BitVec.eq_of_toNat_eq
  simp only [BitVec.toNat_add, BitVec.toNat_shiftLeft, BitVec.toNat_setWidth, Nat.shiftLeft_eq,
    BitVec.toNat_ofNat]
  omega

end Sys2Proof.Machine
end

