-- ==== Sys2Proof/Laws/Framing.lean ====
section
/-! SUPPORT. Laws/Framing.lean: everything `FrameLine()` can answer (R140), said once. -/
namespace Sys2Proof.Machine

/-! ### The input ahead (R42, R60, R276) -/

theorem cycleFrom_nil (k n : Nat) : cycleFrom [] k n = [] := rfl

theorem length_cycleFrom (cycle : List Byte) (k n : Nat) (h : cycle ≠ []) : (cycleFrom cycle k n).length = n := by
  simp [cycleFrom, h]

/-- Whatever a cycle repeats is one of its bytes. -/
theorem mem_of_mem_cycleFrom (cycle : List Byte) (k n : Nat) (b : Byte) (h : b ∈ cycleFrom cycle k n) : b ∈ cycle := by
  unfold cycleFrom at h
  split at h
  · cases h
  · next hc =>
    obtain ⟨j, _, rfl⟩ := List.mem_map.mp h
    have hlt : (k + j) % cycle.length < cycle.length := Nat.mod_lt _ (List.length_pos_of_ne_nil hc)
    rw [List.getD_eq_getElem _ _ hlt]
    exact List.getElem_mem hlt

/-- A stretch as long as the cycle holds all of it. -/
theorem mem_cycleFrom (cycle : List Byte) (k n : Nat) (b : Byte) (h : b ∈ cycle) (hn : cycle.length ≤ n) :
    b ∈ cycleFrom cycle k n := by
  obtain ⟨i, hi, rfl⟩ := List.mem_iff_getElem.mp h
  have hne : cycle ≠ [] := List.ne_nil_of_mem h
  have hk : k % cycle.length < cycle.length := Nat.mod_lt _ (by omega)
  let j := (i + (cycle.length - k % cycle.length)) % cycle.length
  have hj : j < cycle.length := Nat.mod_lt _ (by omega)
  have hidx : (k + j) % cycle.length = i := by
    rw [Nat.add_mod, Nat.mod_mod, Nat.add_mod_mod,
      show k % cycle.length + (i + (cycle.length - k % cycle.length)) = i + cycle.length by omega,
      Nat.add_mod_right, Nat.mod_eq_of_lt hi]
  simp only [cycleFrom, hne, if_false]
  exact List.mem_map.mpr ⟨j, List.mem_range.mpr (by omega), by rw [hidx, List.getD_eq_getElem _ _ hi]⟩

/-- Where `End` follows the bytes, the input ahead is what is left of them. -/
theorem inputRest_of_ends (s : State) (h : s.host.input.cycle = []) :
    inputRest s = s.host.input.bytes.drop s.inPos := by
  simp [inputRest, h, cycleFrom_nil]

@[simp] theorem passReads_errAt (s : State) : (passReads s).errAt = readErrAt s := rfl
@[simp] theorem passReads_holdAt (s : State) : (passReads s).holdAt = readHoldAt s := rfl
@[simp] theorem passReads_endless (s : State) :
    (passReads s).endless = true ↔ s.host.input.cycle ≠ [] := by simp [passReads]

/-! ### `FrameLine()` -/

/-- No read at a stream position from `lo` up to, not including, `hi` fails or is left unanswered. -/
def Reads.good (reads : Reads) (lo hi : Nat) : Prop :=
  ∀ q, reads.errAt = some q ∨ reads.holdAt = some q → q < lo ∨ hi ≤ q

theorem Reads.good_nil (reads : Reads) (pos : Nat) : reads.good pos pos := fun q _ => by omega

/-- One more good read in front. -/
theorem Reads.good_cons (reads : Reads) (pos hi : Nat) (he : reads.errAt ≠ some pos) (hh : reads.holdAt ≠ some pos)
    (hg : reads.good (pos + 1) hi) : reads.good pos hi := by
  intro q hq
  have hne : q ≠ pos := by
    rintro rfl
    exact hq.elim he hh
  have := hg q hq
  omega

/-- What framing answers from stream position `pos`, with `line` read so far and `taken` what it consumes. -/
inductive FrameResult (reads : Reads) (rest line taken : List Byte) (pos : Nat) : Frame → Prop where
  | line (h : line ++ taken ≠ []) (hlf : chLF ∉ (line ++ taken).dropLast) :
      FrameResult reads rest line taken pos (.line (line ++ taken))
  | tooLong (h : line ++ taken ≠ []) (hlf : chLF ∉ (line ++ taken).dropLast) :
      FrameResult reads rest line taken pos (.tooLong (line ++ taken))
  | endOfInput (ht : taken = []) (hr : rest = []) (hl : line = []) (he : reads.errAt ≠ some pos)
      (hh : reads.holdAt ≠ some pos) (hn : reads.endless = false) : FrameResult reads rest line taken pos .endOfInput
  | readError (he : reads.errAt = some pos) (hlf : chLF ∉ taken) : FrameResult reads rest line taken pos .readError
  | waiting (he : reads.errAt ≠ some pos)
      (hw : reads.holdAt = some pos ∨ reads.endless = true ∧ rest = taken) (hlf : chLF ∉ taken) :
      FrameResult reads rest line taken pos .waiting

/-- R140: framing consumes a stretch `taken` of the input, with no failed or unanswered read in it. -/
theorem frameFrom_result (policy : LongLinePolicy) (reads : Reads) (rest : List Byte) (pos : Nat)
    (line : List Byte) (hline : chLF ∉ line) :
    ∃ taken more, rest = taken ++ more ∧
      (frameFrom policy reads rest pos line).2 = pos + taken.length ∧
      reads.good pos (pos + taken.length) ∧
      FrameResult reads rest line taken (pos + taken.length) (frameFrom policy reads rest pos line).1 := by
  induction rest generalizing pos line with
  | nil =>
    have hg : reads.good pos (pos + ([] : List Byte).length) := reads.good_nil pos
    unfold frameFrom
    split
    · next he => exact ⟨[], [], rfl, rfl, hg, .readError he (by simp)⟩
    · next he =>
      split
      · next hw => exact ⟨[], [], rfl, rfl, hg, .waiting he (hw.imp_right fun h => ⟨h, rfl⟩) (by simp)⟩
      · next hw =>
        simp only [not_or, Bool.not_eq_true] at hw
        split
        · next hl => exact ⟨[], [], rfl, rfl, hg, .endOfInput rfl rfl hl he hw.1 hw.2⟩
        · next hl =>
          have hl' : line ++ [] ≠ [] := by simpa using hl
          have hd : chLF ∉ (line ++ []).dropLast := by
            simpa using fun h => hline (List.dropLast_subset _ h)
          split
          · have := FrameResult.tooLong (reads := reads) (rest := []) (pos := pos) hl' hd
            exact ⟨[], [], rfl, rfl, hg, by simpa using this⟩
          · have := FrameResult.line (reads := reads) (rest := []) (pos := pos) hl' hd
            exact ⟨[], [], rfl, rfl, hg, by simpa using this⟩
  | cons b rest ih =>
    have hd : chLF ∉ (line ++ [b]).dropLast := by simpa using hline
    have hn : line ++ [b] ≠ [] := by simp
    unfold frameFrom
    split
    · next he => exact ⟨[], b :: rest, rfl, rfl, reads.good_nil pos, .readError he (by simp)⟩
    · next he =>
      split
      · next hh => exact ⟨[], b :: rest, rfl, rfl, reads.good_nil pos, .waiting he (.inl hh) (by simp)⟩
      · next hh =>
        have hg : reads.good pos (pos + [b].length) := reads.good_cons _ _ he hh (reads.good_nil _)
        split
        · split
          · exact ⟨[b], rest, rfl, rfl, hg, .tooLong hn hd⟩
          · exact ⟨[b], rest, rfl, rfl, hg, .line hn hd⟩
        · next hb =>
          split
          · exact ⟨[b], rest, rfl, rfl, hg, .line hn hd⟩
          · have hline' : chLF ∉ line ++ [b] := by
              simp only [List.mem_append, List.mem_singleton, not_or]
              exact ⟨hline, fun h => hb h.symm⟩
            obtain ⟨taken, more, hr, hp, hg', hf⟩ := ih (pos + 1) (line ++ [b]) hline'
            have hpos : pos + 1 + taken.length = pos + (b :: taken).length := by simp; omega
            have hassoc : line ++ [b] ++ taken = line ++ b :: taken := by simp
            have htaken : chLF ∉ taken → chLF ∉ b :: taken := fun h => by
              simp only [List.mem_cons, not_or]
              exact ⟨fun e => hb e.symm, h⟩
            rw [hpos] at hg' hf
            refine ⟨b :: taken, more, by simp [hr], by rw [hp, hpos], reads.good_cons _ _ he hh hg', ?_⟩
            generalize (frameFrom policy reads rest (pos + 1) (line ++ [b])).1 = f at hf
            cases hf with
            | line h hlf => rw [hassoc] at h hlf ⊢; exact .line h hlf
            | tooLong h hlf => rw [hassoc] at h hlf ⊢; exact .tooLong h hlf
            | endOfInput ht hr hl => exact absurd hl (by simp)
            | readError he' hlf => exact .readError he' (htaken hlf)
            | waiting he' hw hlf => exact .waiting he' (hw.imp_right fun h => ⟨h.1, by rw [h.2]⟩) (htaken hlf)

/-- R140 at the input cursor. -/
theorem frameLine_result (s : State) :
    ∃ taken more, inputRest s = taken ++ more ∧ (frameLine s).2 = s.inPos + taken.length ∧
      readsGood s s.inPos (s.inPos + taken.length) ∧
      FrameResult (passReads s) (inputRest s) [] taken (s.inPos + taken.length) (frameLine s).1 :=
  frameFrom_result s.longLinePolicy (passReads s) (inputRest s) s.inPos [] (by simp)

/-- R276: where the next read is not answered, framing waits and consumes nothing. -/
theorem frameLine_of_unanswered (s : State) (hh : readHoldAt s = some s.inPos) (he : readErrAt s ≠ some s.inPos) :
    frameLine s = (.waiting, s.inPos) := by
  unfold frameLine
  cases inputRest s <;> rw [frameFrom, if_neg (by simpa using he), if_pos (by simp [hh])]

/-- R276: framing answers `End` only where the input ends. -/
theorem frameLine_ne_endOfInput (s : State) (h : s.host.input.cycle ≠ []) : (frameLine s).1 ≠ .endOfInput := by
  intro he
  obtain ⟨_, _, _, _, _, hf⟩ := frameLine_result s
  rw [he] at hf
  cases hf with
  | endOfInput _ _ _ _ _ hn => exact absurd ((passReads_endless s).mpr h) (by simp [hn])

/-- Reading bytes that are no LF, all of whose reads are good, and with no split on the way, only makes the line longer
(R140). -/
theorem frameFrom_append (policy : LongLinePolicy) (reads : Reads) (body tail : List Byte) (pos : Nat)
    (line : List Byte) (hlf : chLF ∉ body) (hg : reads.good pos (pos + body.length))
    (hsplit : policy = .split → line.length + body.length < lineMax ∨ lineMax ≤ line.length) :
    frameFrom policy reads (body ++ tail) pos line =
      frameFrom policy reads tail (pos + body.length) (line ++ body) := by
  induction body generalizing pos line with
  | nil => simp
  | cons b body ih =>
    simp only [List.mem_cons, not_or] at hlf
    simp only [List.length_cons] at hg hsplit
    have he : reads.errAt ≠ some pos := fun h => by have := hg pos (.inl h); omega
    have hh : reads.holdAt ≠ some pos := fun h => by have := hg pos (.inr h); omega
    have hs : splitHere policy (line ++ [b]) = false := by
      cases policy with
      | fault => simp [splitHere]
      | split => have := hsplit rfl; simp [splitHere, lineMax] at *; omega
    have hb : ¬ (b = chLF) := fun h => hlf.1 h.symm
    rw [List.cons_append, frameFrom, if_neg he, if_neg hh, if_neg hb, hs, if_neg (by simp),
      ih (pos + 1) (line ++ [b]) hlf.2 (fun q hq => by have := hg q hq; omega)
        (fun hp => by have := hsplit hp; simp; omega)]
    simp [Nat.add_assoc, Nat.add_comm 1]

/-- Under SPLIT a line does not outgrow 511 bytes, so framing that still reads at the end of an endless input's stretch
has read fewer. -/
theorem frameFrom_split_waiting (reads : Reads) (rest : List Byte) (pos : Nat) (line : List Byte)
    (hl : line.length < lineMax) (hm : lineMax ≤ line.length + rest.length)
    (h : (frameFrom .split reads rest pos line).1 = .waiting) :
    reads.holdAt = some (frameFrom .split reads rest pos line).2 := by
  induction rest generalizing pos line with
  | nil => simp at hm; omega
  | cons b rest ih =>
    rw [frameFrom] at h ⊢
    split at h
    · cases h
    · next he =>
      rw [if_neg he]
      split at h
      · next hh => rw [if_pos hh]; exact hh
      · next hh =>
        rw [if_neg hh]
        split at h
        · split at h <;> cases h
        · next hb =>
          rw [if_neg hb]
          split at h
          · cases h
          · next hs =>
            rw [if_neg hs]
            have hlen : (line ++ [b]).length < lineMax := by
              simp only [splitHere, List.length_append, List.length_singleton, beq_self_eq_true, Bool.and_true,
                decide_eq_true_eq] at hs ⊢
              omega
            exact ih (pos + 1) (line ++ [b]) hlen (by simp at hm ⊢; omega) h

end Sys2Proof.Machine
end

