-- ==== Sys2Proof/Laws/PerInstr.lean ====
section
/-! SUPPORT. Laws/PerInstr.lean: statements made for every instruction, one lemma for each constructor of Instr.
TypeMapKeeps: reading a well-formed instruction's type byte and fields through the type map gives it back (R95, R96). -/
namespace Sys2Proof.Laws.TypeMapKeeps

/-- The type map of R95 gives back a well-formed instruction from its type byte and its fields. -/
def Statement (i : Instr) : Prop := i.wellFormed = true → instrOfType i.typeByte i.record = i

/-- No type byte of the rows below is one of the six record types. -/
theorem not_record_type (ty : Byte)
    (h : rowHolds 0xFE#8 0x06#8 ty = true ∨ rowHolds 0xF8#8 0x08#8 ty = true ∨
      rowHolds 0xF0#8 0x10#8 ty = true ∨ rowHolds 0xE0#8 0x20#8 ty = true ∨
      rowHolds 0xC0#8 0x40#8 ty = true ∨ rowHolds 0x80#8 0x80#8 ty = true) :
    ty ≠ 0x00#8 ∧ ty ≠ 0x01#8 ∧ ty ≠ 0x02#8 ∧ ty ≠ 0x03#8 ∧ ty ≠ 0x04#8 ∧ ty ≠ 0x05#8 := by
  revert ty; decide +kernel

/-- The reserved rows do not overlap (R96): a type byte in a row is in none of the rows before it. -/
theorem rows_disjoint (ty : Byte) :
    (rowHolds 0xF8#8 0x08#8 ty = true → rowHolds 0xFE#8 0x06#8 ty = false) ∧
    (rowHolds 0xF0#8 0x10#8 ty = true →
      rowHolds 0xFE#8 0x06#8 ty = false ∧ rowHolds 0xF8#8 0x08#8 ty = false) ∧
    (rowHolds 0xE0#8 0x20#8 ty = true → rowHolds 0xFE#8 0x06#8 ty = false ∧
      rowHolds 0xF8#8 0x08#8 ty = false ∧ rowHolds 0xF0#8 0x10#8 ty = false) ∧
    (rowHolds 0xC0#8 0x40#8 ty = true → rowHolds 0xFE#8 0x06#8 ty = false ∧
      rowHolds 0xF8#8 0x08#8 ty = false ∧ rowHolds 0xF0#8 0x10#8 ty = false ∧
      rowHolds 0xE0#8 0x20#8 ty = false) ∧
    (rowHolds 0x80#8 0x80#8 ty = true → rowHolds 0xFE#8 0x06#8 ty = false ∧
      rowHolds 0xF8#8 0x08#8 ty = false ∧ rowHolds 0xF0#8 0x10#8 ty = false ∧
      rowHolds 0xE0#8 0x20#8 ty = false ∧ rowHolds 0xC0#8 0x40#8 ty = false) := by
  revert ty; decide +kernel

theorem data (r : Record) : Statement (.data r) := fun _ => by
  simp [instrOfType, Instr.typeByte, Instr.record]

theorem eof (r : Record) : Statement (.eof r) := fun _ => by
  simp [instrOfType, Instr.typeByte, Instr.record]

theorem esa (r : Record) : Statement (.esa r) := fun _ => by
  simp [instrOfType, Instr.typeByte, Instr.record]

theorem sa (r : Record) : Statement (.sa r) := fun _ => by
  simp [instrOfType, Instr.typeByte, Instr.record]

theorem ela (r : Record) : Statement (.ela r) := fun _ => by
  simp [instrOfType, Instr.typeByte, Instr.record]

theorem sla (r : Record) : Statement (.sla r) := fun _ => by
  simp [instrOfType, Instr.typeByte, Instr.record]

theorem unknown06_07 (ty : Byte) (r : Record) : Statement (.unknown06_07 ty r) := fun h => by
  have hrow : rowHolds 0xFE#8 0x06#8 ty = true := (Bool.and_eq_true_iff.mp h).1
  obtain ⟨h0, h1, h2, h3, h4, h5⟩ := not_record_type ty (by simp [hrow])
  simp only [Instr.typeByte, Instr.record, instrOfType, h0, h1, h2, h3, h4, h5, hrow, if_true, if_false]

theorem unknown08_0F (ty : Byte) (r : Record) : Statement (.unknown08_0F ty r) := fun h => by
  have hrow : rowHolds 0xF8#8 0x08#8 ty = true := (Bool.and_eq_true_iff.mp h).1
  obtain ⟨h0, h1, h2, h3, h4, h5⟩ := not_record_type ty (by simp [hrow])
  have hd := (rows_disjoint ty).1 hrow
  simp only [Instr.typeByte, Instr.record, instrOfType, h0, h1, h2, h3, h4, h5, hrow, hd, if_true, if_false,
    Bool.false_eq_true]

theorem unknown10_1F (ty : Byte) (r : Record) : Statement (.unknown10_1F ty r) := fun h => by
  have hrow : rowHolds 0xF0#8 0x10#8 ty = true := (Bool.and_eq_true_iff.mp h).1
  obtain ⟨h0, h1, h2, h3, h4, h5⟩ := not_record_type ty (by simp [hrow])
  have hd := (rows_disjoint ty).2.1 hrow
  simp only [Instr.typeByte, Instr.record, instrOfType, h0, h1, h2, h3, h4, h5, hrow, hd, if_true, if_false,
    Bool.false_eq_true]

theorem unknown20_3F (ty : Byte) (r : Record) : Statement (.unknown20_3F ty r) := fun h => by
  have hrow : rowHolds 0xE0#8 0x20#8 ty = true := (Bool.and_eq_true_iff.mp h).1
  obtain ⟨h0, h1, h2, h3, h4, h5⟩ := not_record_type ty (by simp [hrow])
  have hd := (rows_disjoint ty).2.2.1 hrow
  simp only [Instr.typeByte, Instr.record, instrOfType, h0, h1, h2, h3, h4, h5, hrow, hd, if_true, if_false,
    Bool.false_eq_true]

theorem unknown40_7F (ty : Byte) (r : Record) : Statement (.unknown40_7F ty r) := fun h => by
  have hrow : rowHolds 0xC0#8 0x40#8 ty = true := (Bool.and_eq_true_iff.mp h).1
  obtain ⟨h0, h1, h2, h3, h4, h5⟩ := not_record_type ty (by simp [hrow])
  have hd := (rows_disjoint ty).2.2.2.1 hrow
  simp only [Instr.typeByte, Instr.record, instrOfType, h0, h1, h2, h3, h4, h5, hrow, hd, if_true, if_false,
    Bool.false_eq_true]

theorem unknown80_FF (ty : Byte) (r : Record) : Statement (.unknown80_FF ty r) := fun h => by
  have hrow : rowHolds 0x80#8 0x80#8 ty = true := (Bool.and_eq_true_iff.mp h).1
  obtain ⟨h0, h1, h2, h3, h4, h5⟩ := not_record_type ty (by simp [hrow])
  have hd := (rows_disjoint ty).2.2.2.2 hrow
  simp only [Instr.typeByte, Instr.record, instrOfType, h0, h1, h2, h3, h4, h5, hd, if_false,
    Bool.false_eq_true]

end Sys2Proof.Laws.TypeMapKeeps
end

