-- ==== Sys2Proof/Laws/Step.lean ====
section
/-! SUPPORT. Laws/Step.lean: everything a line step and a step can do, said once: later proofs cite these and never
unfold the step. -/
namespace Sys2Proof.Machine

/-! ### The line step (R154) -/

theorem checksumFails_iff (rec : List Byte) (s : State) :
    checksumFails rec s = true ↔ s.phase = .decode ∧ s.ignoreCs = false ∧ verifyChecksum rec = false := by
  simp [checksumFails, and_assoc]

/-- The outcomes of a line step from `u`, with `in_pos` already moved past the bytes framing consumed. -/
inductive LineResult (u t : State) : Frame → Prop where
  | readError (ht : t = raise .ioError u) : LineResult u t .readError
  | endOfInput (ht : t = endPass u) : LineResult u t .endOfInput
  | tooLong (line : List Byte) (ht : t = malformed u) : LineResult u t (.tooLong line)
  | waiting (ht : t = u) : LineResult u t .waiting
  | skipped (line : List Byte) (he : decodeLine line = .error .notEligible) (ht : t = u) :
      LineResult u t (.line line)
  | tooShort (line : List Byte) (he : decodeLine line = .error .tooShort) (ht : t = malformed u) :
      LineResult u t (.line line)
  | badChecksum (line : List Byte) (i : Instr) (hi : decodeLine line = .ok i)
      (hc : checksumFails (lineRec line) u = true) (ht : t = raise .badChecksum u) : LineResult u t (.line line)
  | ran (line : List Byte) (i : Instr) (hi : decodeLine line = .ok i)
      (hc : checksumFails (lineRec line) u = false) (hx : exec i u = .next t) (hr : ExecResult u t i) :
      LineResult u t (.line line)

theorem lineStep_result (s : State) :
    ∃ t, lineStep s = .next t ∧ LineResult (atPos s (frameLine s).2) t (frameLine s).1 := by
  show ∃ t, afterFrame (frameLine s).1 (atPos s (frameLine s).2) = .next t ∧ _
  generalize (frameLine s).1 = f
  generalize atPos s (frameLine s).2 = u
  cases f with
  | readError => exact ⟨_, rfl, .readError rfl⟩
  | endOfInput => exact ⟨_, rfl, .endOfInput rfl⟩
  | tooLong line => exact ⟨_, rfl, .tooLong line rfl⟩
  | waiting => exact ⟨_, rfl, .waiting rfl⟩
  | line line =>
    simp only [afterFrame, processLine]
    cases hd : decodeLine line with
    | error e =>
      cases e with
      | notEligible => exact ⟨_, rfl, .skipped line hd rfl⟩
      | tooShort => exact ⟨_, rfl, .tooShort line hd rfl⟩
    | ok i =>
      cases hc : checksumFails (lineRec line) u with
      | true => exact ⟨_, by simp, .badChecksum line i hd hc rfl⟩
      | false =>
        obtain ⟨t, ht, hr⟩ := exec_result i u
        exact ⟨t, by simpa using ht, .ran line i hd hc ht hr⟩

theorem lineStep_next (s t : State) (h : lineStep s = .next t) :
    LineResult (atPos s (frameLine s).2) t (frameLine s).1 := by
  obtain ⟨t', ht', hr⟩ := lineStep_result s
  rw [h] at ht'
  cases ht'
  exact hr

/-! ### The step -/

/-- R204, R213, R272: what the block's own step is, by phase. -/
theorem blockStep_of_inPass (s : State) (h : inPass s) : blockStep s = lineStep s := by
  rcases h with h | h <;> simp [blockStep, h]

theorem blockStep_of_alloc (s : State) (h : s.phase = .alloc) : blockStep s = .next (allocStep s) := by
  simp [blockStep, h]

theorem blockStep_of_atRest (s : State) (h : atRest s) : blockStep s = .next s := by
  rcases h with h | h | h <;> simp [blockStep, h]

theorem phase_cases (s : State) : inPass s ∨ s.phase = .alloc ∨ atRest s := by
  rcases hp : s.phase <;> simp [inPass, atRest, hp]

theorem busy_eq_false_iff (s : State) : busy s = false ↔ atRest s := by
  rcases hp : s.phase <;> simp [busy, atRest, hp]

/-- The block's turn leaves every register as it is. -/
theorem blockTurn_eq (s u : State) (h : blockTurn s = some u) : u = s ∨ u = dropMove s := by
  unfold blockTurn at h
  split at h
  · exact .inl (Option.some.inj h).symm
  · exact .inr (Option.some.inj h).symm
  · cases h
  · cases h

/-- On the block's turn the step is the block's own. -/
theorem step_of_blockTurn (s u : State) (h : blockTurn s = some u) : step s = blockStep u := by
  unfold step transaction
  unfold blockTurn at h
  split at h
  · next hd => cases h; simp [hd]
  · next hd => cases h; simp [hd, hostStep]
  · cases h
  · cases h

/-- With no move to come it is the block's turn. -/
theorem blockTurn_of_no_moves (s : State) (h : s.host.moves = []) : blockTurn s = some s := by
  simp [blockTurn, dueMove, h]

/-- Everything a step can be: the block's own step, an accepted command, or a new input. -/
theorem step_cases (s : State) :
    (∃ u, blockTurn s = some u ∧ step s = blockStep u) ∨
    (∃ p more, s.host.moves = .issue p :: more ∧ admissible (.issue p) s = true ∧
      step s = .next (command p (dropMove s))) ∨
    (∃ input answer more, s.host.moves = .present input answer :: more ∧ atRest s ∧
      step s = .next (present input answer (dropMove s))) := by
  cases hd : dueMove s with
  | none => exact .inl ⟨s, by simp [blockTurn, hd], by simp [step, transaction, hd]⟩
  | some m =>
    have hm : ∃ more, s.host.moves = m :: more ∧ admissible m s = true := by
      unfold dueMove at hd
      split at hd
      · cases hd
      · next m' more hmoves =>
        split at hd
        · next ha => cases hd; exact ⟨more, hmoves, ha⟩
        · cases hd
    obtain ⟨more, hmoves, ha⟩ := hm
    cases m with
    | idle => exact .inl ⟨dropMove s, by simp [blockTurn, hd], by simp [step, transaction, hd, hostStep]⟩
    | issue p => exact .inr (.inl ⟨p, more, hmoves, ha, by simp [step, transaction, hd, hostStep]⟩)
    | present input answer =>
      refine .inr (.inr ⟨input, answer, more, hmoves, ?_, by simp [step, transaction, hd, hostStep]⟩)
      exact (busy_eq_false_iff s).mp (by simpa [admissible] using ha)

/-- The step from a move the host may make now. -/
theorem step_of_move (s : State) (m : HostMove) (more : List HostMove) (hm : s.host.moves = m :: more)
    (ha : admissible m s = true) : step s = hostStep m (dropMove s) := by
  simp [step, transaction, dueMove, hm, ha]

/-- The step while the host's next move must wait. -/
theorem step_of_waiting (s : State) (m : HostMove) (more : List HostMove) (hm : s.host.moves = m :: more)
    (ha : admissible m s = false) : step s = blockStep s := by
  simp [step, transaction, dueMove, hm, ha]

/-- R213: what an allocation step can be. -/
theorem allocStep_cases (s : State) :
    (allocSize s = none ∧ allocStep s = raise .bufferBound s) ∨
    ∃ n, allocSize s = some n ∧
      ((s.host.allocAnswer = .ok ∧ allocStep s = startDecodePass n s) ∨
       (s.host.allocAnswer = .fail ∧ allocStep s = raise .ioError s) ∨
       (s.host.allocAnswer = .silent ∧ allocStep s = s)) := by
  cases hn : allocSize s with
  | none => exact .inl ⟨rfl, by simp [allocStep, hn]⟩
  | some n =>
    refine .inr ⟨n, rfl, ?_⟩
    cases ha : s.host.allocAnswer with
    | ok => exact .inl ⟨rfl, by simp [allocStep, hn, ha]⟩
    | fail => exact .inr (.inl ⟨rfl, by simp [allocStep, hn, ha]⟩)
    | silent => exact .inr (.inr ⟨rfl, by simp [allocStep, hn, ha]⟩)

/-- R213, R276: an allocation that is not answered leaves the block as it is. -/
theorem blockStep_of_silent (s : State) (n : Nat) (h : s.phase = .alloc) (hn : allocSize s = some n)
    (ha : s.host.allocAnswer = .silent) : blockStep s = .next s := by
  simp [blockStep, h, allocStep, hn, ha]

/-- R276: a read that is not answered leaves the block as it is. -/
theorem blockStep_of_unanswered (s : State) (h : inPass s) (hh : readHoldAt s = some s.inPos)
    (he : readErrAt s ≠ some s.inPos) : blockStep s = .next s := by
  rw [blockStep_of_inPass s h]
  simp [lineStep, frameLine_of_unanswered s hh he, afterFrame]

/-- R212: a size is at most 2^32. -/
theorem allocSize_le (s : State) (n : Nat) (h : allocSize s = some n) : n ≤ 2 ^ 32 := by
  have := s.maxAddr.isLt
  unfold allocSize at h
  split at h
  · cases h; omega
  · split at h
    · cases h; omega
    · cases h

/-- R245, R206: no step stops the block. -/
theorem blockStep_next (s : State) : ∃ t, blockStep s = .next t := by
  rcases phase_cases s with h | h | h
  · obtain ⟨t, ht, _⟩ := lineStep_result s
    exact ⟨t, by rw [blockStep_of_inPass s h, ht]⟩
  · exact ⟨_, blockStep_of_alloc s h⟩
  · exact ⟨_, blockStep_of_atRest s h⟩

end Sys2Proof.Machine
end

