-- ==== Sys2Proof/Tests/Slice0.lean ====
section
/-! SUPPORT. Tests/Slice0.lean: the model's own tests. Expected results are the spec's (the vectors V-* of
95_test_vectors.md, the examples in the rules), never the model's. Part 5 shows, for each statement of
Obligations.lean that has hypotheses, a state and operands that meet them (`wit_<statement>`). -/
namespace Sys2Proof.Tests
open Sys2Proof Sys2Proof.Machine
-- One theorem after the other: a thread for each of the many small evaluations would exhaust the check's memory limit.
set_option Elab.async false

/-! ### Helpers -/

/-- The characters of a text. -/
def ascii (s : String) : List Byte := s.toList.map (fun c => BitVec.ofNat 8 c.toNat)

/-- The next state of an outcome. -/
def nextOf (o : Host.Outcome State Fault Refusal) : Option State :=
  match o with
  | .next t => some t
  | .fault _ => none
  | .refused _ => none

/-- A host that has positioned `text` and issues nothing. -/
def quietHost (text : List Byte) : HostSide :=
  { HostSide.quiet with input := { bytes := text, scanErrAt := none, decodeErrAt := none } }

/-- A decode call in the given phase, with `text` to read from its first byte on. -/
def passState (ph : Phase) (ic : Bool) (text : String) : State :=
  { State.reset with phase := ph, call := .decodeCall, ignoreCs := ic, host := quietHost (ascii text) }

/-- A decode pass over `text` with a buffer of `n` bytes whose first byte is at address `mn`. -/
def decodeState (ic : Bool) (mn : Word32) (n : Nat) (text : String) : State :=
  { passState .decode ic text with minAddr := mn, bufSize := n, bufGranted := true }

/-- A scan pass over `AB` whose read at stream position `p` is never answered. -/
def silentState (p : Nat) : State :=
  { State.reset with
    phase := .scan, call := .scanCall,
    host := { HostSide.quiet with
      input := { bytes := ascii "AB", scanErrAt := none, decodeErrAt := none, scanHoldAt := some p } } }

/-- A scan pass over a text repeated without end. -/
def endlessState (text : String) : State :=
  { State.reset with
    phase := .scan, call := .scanCall,
    host := { HostSide.quiet with
      input := { bytes := [], cycle := ascii text, scanErrAt := none, decodeErrAt := none } } }

/-- A record without data. -/
def bare (checksum : Byte) : Record := { address := 0#16, data := [], checksum := checksum }

/-! ### 1. WellFormed: what the check refuses -/

theorem test_wellFormed_refuses_256_bytes :
    (Instr.data { address := 0#16, data := List.replicate 256 0#8, checksum := 0#8 }).wellFormed = false := by
  decide +kernel

theorem test_wellFormed_takes_255_bytes :
    (Instr.data { address := 0#16, data := List.replicate 255 0#8, checksum := 0#8 }).wellFormed = true := by
  decide +kernel

/-- A type byte just outside its row, on either side, is refused (R95). -/
theorem test_wellFormed_refuses_other_rows :
    ([Instr.unknown06_07 0x05#8 (bare 0#8), .unknown06_07 0x08#8 (bare 0#8),
      .unknown08_0F 0x07#8 (bare 0#8), .unknown08_0F 0x10#8 (bare 0#8),
      .unknown10_1F 0x0F#8 (bare 0#8), .unknown10_1F 0x20#8 (bare 0#8),
      .unknown20_3F 0x1F#8 (bare 0#8), .unknown20_3F 0x40#8 (bare 0#8),
      .unknown40_7F 0x3F#8 (bare 0#8), .unknown40_7F 0x80#8 (bare 0#8),
      .unknown80_FF 0x7F#8 (bare 0#8), .unknown80_FF 0x00#8 (bare 0#8)].map Instr.wellFormed).all (! ·) = true := by
  decide

/-! ### 2. Decode -/

/-- V-COD-1, V-COD-2: digits at the ends of their ranges, and the bytes just outside. -/
theorem test_hexToNibble :
    ([0x30#8, 0x39#8, 0x41#8, 0x46#8, 0x61#8, 0x66#8].map hexToNibble = [0#8, 9#8, 10#8, 15#8, 10#8, 15#8]) ∧
    ([0x2F#8, 0x3A#8, 0x40#8, 0x47#8, 0x60#8, 0x67#8, 0x00#8, 0xFF#8, 0x0D#8, 0x0A#8, 0x20#8].all
      (fun c => hexToNibble c == 0#8)) = true := by
  decide

/-- V-COD-3, V-COD-4. -/
theorem test_pairs : pairs (ascii "fF3a001GG1zz") = [0xFF#8, 0x3A#8, 0x00#8, 0x10#8, 0x01#8, 0x00#8] := by
  decide +kernel

/-- V-COD-5. -/
theorem test_nibbleToHex :
    [0x00#8, 0x09#8, 0x0A#8, 0x0F#8, 0xFA#8].map nibbleToHex = [0x30#8, 0x39#8, 0x41#8, 0x46#8, 0x41#8] := by
  decide

/-- V-COD-6. -/
theorem test_encodeByte : hexText [0x00#8, 0x78#8, 0xAB#8, 0xFF#8] = ascii "0078ABFF" := by
  decide +kernel

/-- The Data line of V-DSP-1. -/
theorem test_decode_data :
    decodeLine (ascii ":01001000AA45\n") = .ok (.data { address := 0x0010#16, data := [0xAA#8], checksum := 0x45#8 }) := by
  decide +kernel

/-- V-SRC-2. -/
theorem test_decode_eof : decodeLine (ascii ":00000001FF\n") = .ok (.eof (bare 0xFF#8)) := by
  decide +kernel

/-- R174's example. -/
theorem test_decode_esa :
    decodeLine (ascii ":020000021000EC\n") =
      .ok (.esa { address := 0#16, data := [0x10#8, 0x00#8], checksum := 0xEC#8 }) := by
  decide +kernel

/-- R175's example. -/
theorem test_decode_sa :
    decodeLine (ascii ":0400000300001234B3\n") =
      .ok (.sa { address := 0#16, data := [0x00#8, 0x00#8, 0x12#8, 0x34#8], checksum := 0xB3#8 }) := by
  decide +kernel

/-- V-DSP-13: an ELA record whose address field is not zero. -/
theorem test_decode_ela :
    decodeLine (ascii ":021234040001B3\n") =
      .ok (.ela { address := 0x1234#16, data := [0x00#8, 0x01#8], checksum := 0xB3#8 }) := by
  decide +kernel

/-- R177's example, in lower case and ended by CR LF (R120, R144). -/
theorem test_decode_sla :
    decodeLine (ascii ":04000005000000cd2a\r\n") =
      .ok (.sla { address := 0#16, data := [0x00#8, 0x00#8, 0x00#8, 0xCD#8], checksum := 0x2A#8 }) := by
  decide +kernel

/-- One reserved type of each row, at the row's last value (R95), each line written from R92; and V-ERR-1's type 7. -/
theorem test_decode_reserved :
    decodeLine (ascii ":00000007F9\n") = .ok (.unknown06_07 0x07#8 (bare 0xF9#8)) ∧
    decodeLine (ascii ":0000000FF1\n") = .ok (.unknown08_0F 0x0F#8 (bare 0xF1#8)) ∧
    decodeLine (ascii ":0000001FE1\n") = .ok (.unknown10_1F 0x1F#8 (bare 0xE1#8)) ∧
    decodeLine (ascii ":0000003FC1\n") = .ok (.unknown20_3F 0x3F#8 (bare 0xC1#8)) ∧
    decodeLine (ascii ":0000007F81\n") = .ok (.unknown40_7F 0x7F#8 (bare 0x81#8)) ∧
    decodeLine (ascii ":000000FF01\n") = .ok (.unknown80_FF 0xFF#8 (bare 0x01#8)) := by
  decide +kernel

/-- V-LEN-1, V-LEN-2: too few pairs. V-LEN-3, V-LEN-4: an excess pair and an odd character are ignored (R149). -/
theorem test_decode_length :
    decodeLine (ascii ":00000001F\n") = .error .tooShort ∧
    decodeLine (ascii ":FF00000000\n") = .error .tooShort ∧
    decodeLine (ascii ":00000001FFAB\n") = .ok (.eof (bare 0xFF#8)) ∧
    decodeLine (ascii ":00000001FFA\n") = .ok (.eof (bare 0xFF#8)) := by
  decide +kernel

/-- V-FRM-2: lines that are no records. -/
theorem test_decode_not_eligible :
    decodeLine (ascii "; comment\n") = .error .notEligible ∧ decodeLine (ascii ":0000\n") = .error .notEligible ∧
    decodeLine (ascii " :00000001FF\n") = .error .notEligible := by
  decide +kernel

/-- V-CS-3, V-CS-4. -/
theorem test_computeChecksum :
    computeChecksum [0x00#8, 0x00#8, 0x00#8, 0x01#8] = 0xFF#8 ∧
    computeChecksum [0x01#8, 0x00#8, 0x00#8, 0x00#8, 0x55#8] = 0xAA#8 ∧
    computeChecksum [0x02#8, 0x00#8, 0x00#8, 0x02#8, 0x00#8, 0x00#8] = 0xFC#8 ∧
    computeChecksum [0xFF#8] = 0x01#8 := by
  decide

/-- The opcode table's words: 8 bits, the type byte; the record is empty. -/
theorem test_decodeTableWord :
    [0x00, 0x01, 0x02, 0x03, 0x04, 0x05, 0x06, 0x08, 0x10, 0x20, 0x40, 0x80].map (decodeTableWord 8) =
      [some (.data (bare 0#8)), some (.eof (bare 0#8)), some (.esa (bare 0#8)), some (.sa (bare 0#8)),
       some (.ela (bare 0#8)), some (.sla (bare 0#8)), some (.unknown06_07 0x06#8 (bare 0#8)),
       some (.unknown08_0F 0x08#8 (bare 0#8)), some (.unknown10_1F 0x10#8 (bare 0#8)),
       some (.unknown20_3F 0x20#8 (bare 0#8)), some (.unknown40_7F 0x40#8 (bare 0#8)),
       some (.unknown80_FF 0x80#8 (bare 0#8))] := by
  decide +kernel

/-- A placed word is the very next line: after reset, EOF ends the scan call and a reserved type raises. -/
theorem test_withFetchWord :
    (nextOf (step (State.reset.withFetchWord 8 0x01))).map (fun t => (t.phase, t.inPos)) = some (.done, 12) ∧
    (nextOf (step (State.reset.withFetchWord 8 0x06))).map (fun t => (t.phase, t.err)) =
      some (.error, .unknownRecordType) := by
  decide +kernel

/-! ### 3. One step of each instruction -/

/-- R171's example: 16 bytes at 0x0100, from the sentinel. -/
theorem test_data_scan :
    (nextOf (step (passState .scan false ":10010000000102030405060708090A0B0C0D0E0F77\n"))).map
      (fun t => (t.minAddr, t.maxAddr, t.totalSize, t.inPos)) =
      some (0x100#32, 0x10F#32, 16#32, 44) := by
  decide +kernel

/-- V-DSP-11: a record that runs past 0xFFFF is placed without wrap (R184). -/
theorem test_data_decode :
    (nextOf (step (decodeState false 0xFFFE#32 4 ":04FFFE0001020304F5\n"))).map (fun t => (t.phase, imageBytes t)) =
      some (.decode, [some 1#8, some 2#8, some 3#8, some 4#8]) := by
  decide +kernel

/-- V-DSP-10: EOF ends the scan pass of a decode call, with what follows unread. -/
theorem test_eof_scan :
    (nextOf (step (passState .scan false ":00000001FF\n:00000006FA\ngarbage\n"))).map (fun t => (t.phase, t.inPos)) =
      some (.alloc, 12) := by
  decide +kernel

/-- R218: EOF ends the decode pass; `base_addr` is `min_addr`. V-CS-2: its checksum is checked first. -/
theorem test_eof_decode :
    (nextOf (step (decodeState false 7#32 0 ":00000001FF\n"))).map (fun t => (t.phase, t.baseAddr)) =
      some (.done, 7#32) ∧
    (nextOf (step (decodeState false 7#32 0 ":00000001FE\n"))).map (fun t => (t.phase, t.err)) =
      some (.error, .badChecksum) := by
  decide +kernel

/-- V-DSP-12: the third data byte is ignored. -/
theorem test_esa :
    (nextOf (step (passState .scan false ":030000021234565F\n"))).map (fun t => (t.segBias, t.linBias)) =
      some (0x12340#32, 0#32) := by
  decide +kernel

/-- V-DSP-6: byteCount 1, in either pass. -/
theorem test_esa_short :
    (nextOf (step (passState .scan false ":0100000210ED\n"))).map (fun t => (t.phase, t.segBias)) =
      some (.scan, 0#32) ∧
    (nextOf (step (passState .decode false ":0100000210ED\n"))).map (fun t => (t.phase, t.err)) =
      some (.error, .badHexData) := by
  decide +kernel

/-- V-DSP-13: the address field is ignored, and the segment bias stays (C1). -/
theorem test_ela :
    (nextOf (step { passState .scan false ":021234040001B3\n" with segBias := 0x10000#32 })).map
      (fun t => (t.segBias, t.linBias)) = some (0x10000#32, 0x10000#32) := by
  decide +kernel

/-- V-DSP-7: byteCount 0 in the decode pass. -/
theorem test_ela_short :
    (nextOf (step (passState .decode false ":00000004FC\n"))).map (fun t => (t.phase, t.err)) =
      some (.error, .badHexData) := by
  decide +kernel

/-- V-DSP-8: the start records change only `in_pos`. -/
theorem test_start_records :
    nextOf (step (passState .decode false ":0400000300001234B3\n")) =
      some { passState .decode false ":0400000300001234B3\n" with inPos := 20 } ∧
    nextOf (step (passState .scan false ":04000005000000CD2A\n")) =
      some { passState .scan false ":04000005000000CD2A\n" with inPos := 20 } := by
  decide +kernel

/-- V-DSP-9, V-DSP-9i, V-DSP-9b: a reserved type raises, whatever its checksum in the scan pass. -/
theorem test_reserved_scan :
    (nextOf (step (passState .scan true ":00000006FA\n"))).map (fun t => (t.phase, t.err, t.inPos)) =
      some (.error, .unknownRecordType, 12) ∧
    (nextOf (step (passState .scan false ":00000007FA\n"))).map (fun t => (t.phase, t.err)) =
      some (.error, .unknownRecordType) := by
  decide +kernel

/-- R178, R248: in the decode pass with the check on, a bad checksum comes first; with it off, the type raises. -/
theorem test_reserved_decode :
    [":00000009FF\n", ":00000010FF\n", ":00000020FF\n", ":00000040FF\n", ":00000080FF\n"].all (fun text =>
      (nextOf (step (passState .decode false text))).map (fun t => t.err) == some .badChecksum &&
      (nextOf (step (passState .decode true text))).map (fun t => t.err) == some .unknownRecordType) = true := by
  decide +kernel

/-- V-SCAN-7d: the sentinel scan result of a call that did see data; the empty buffer holds no byte. -/
theorem test_data_outside :
    (nextOf (step { decodeState false 0xFFFFFFFF#32 0 ":02FFFF00DEAD75\n" with linBias := 0xFFFF0000#32 })).map
      (fun t => (t.phase, t.err, t.inPos)) = some (.error, .bufferBound, 16) := by
  decide +kernel

/-! ### 4. The other steps -/

/-- V-SCAN-4d: a scan result whose maximum wrapped below its minimum. -/
theorem test_alloc_bound :
    (nextOf (step { passState .alloc false "" with minAddr := 0xFFFFFFF0#32, maxAddr := 0x0F#32 })).map
      (fun t => (t.phase, t.err, t.bufSize)) = some (.error, .bufferBound, 0) := by
  decide +kernel

/-- V-LEN-5d: the whole space is asked for, and the host fails it. -/
theorem test_alloc_fail :
    allocSize { State.reset with minAddr := 0#32, maxAddr := 0xFFFFFFFF#32 } = some (2 ^ 32) ∧
    (nextOf (step { passState .alloc false "" with
        minAddr := 0#32, maxAddr := 0xFFFFFFFF#32,
        host := { quietHost [] with allocAnswer := .fail } })).map (fun t => (t.phase, t.err, t.bufSize)) =
      some (.error, .ioError, 0) := by
  decide +kernel

/-- V-PASS-5: RESET in the decode pass. -/
theorem test_reset_command :
    nextOf (step { decodeState true 5#32 9 "" with
        host := { HostSide.quiet with moves := [.issue { cmd := .reset, variant := .linear, ignoreCs := true }] } }) =
      some State.reset := by
  decide +kernel

/-- V-FRM-8: the read of byte 5 fails; five bytes are consumed. -/
theorem test_read_error :
    (nextOf (step { passState .scan false ":0100000055AA\n" with
        host := { HostSide.quiet with
          input := { bytes := ascii ":0100000055AA\n", scanErrAt := some 5, decodeErrAt := none } } })).map
      (fun t => (t.phase, t.err, t.inPos)) = some (.error, .ioError, 5) := by
  decide +kernel

/-- R276: an unanswered read holds the block after the bytes before it, an unanswered `Alloc` in ALLOC. -/
theorem test_held :
    (nextOf (step (silentState 1))).map (fun t => (t.phase, t.inPos)) = some (.scan, 1) ∧
    nextOf (step (silentState 0)) = some (silentState 0) ∧
    (nextOf (step { passState .alloc false "" with host := { HostSide.quiet with allocAnswer := .silent } })).map
      (fun t => t.phase) = some .alloc := by
  decide +kernel

/-- R276: an input without `End` is read on and on: its second line stands where the first one ended. -/
theorem test_endless :
    (nextOf (step { endlessState ":0100000055AA\n" with inPos := 14 })).map
      (fun t => (t.phase, t.inPos, t.totalSize)) = some (.scan, 28, 1#32) := by
  decide +kernel

/-- V-FRM-7: with CR only, the whole input is one line, and its payload stops at the first CR. -/
theorem test_cr_only :
    (nextOf (step (decodeState false 0#32 1 ":0100000055AA\r:00000001FF\r:0100010066??\r"))).map
      (fun t => (t.phase, t.inPos, imageBytes t)) = some (.decode, 40, [some 0x55#8]) := by
  decide +kernel

/-- The line of V-FRM-10 and V-FRM-11: content of 520 characters. -/
def longLine : List Byte := ascii ":00000001FF" ++ List.replicate 509 0x41#8 ++ [chLF]

/-- V-FRM-10: SPLIT reads 511 bytes as a line, an EOF record. V-FRM-11: FAULT raises in the decode pass. -/
theorem test_long_line :
    (nextOf (step { passState .scan false "" with host := quietHost longLine })).map (fun t => (t.phase, t.inPos)) =
      some (.alloc, 511) ∧
    (nextOf (step { passState .decode false "" with
        longLinePolicy := .fault, host := quietHost longLine })).map (fun t => (t.phase, t.err, t.inPos)) =
      some (.error, .badHexData, 521) := by
  decide +kernel

/-! ### 5. Witnesses: states and operands that meet the hypotheses of the statements -/

theorem readsGood_of_none (s : State) (lo hi : Nat) (h : readErrAt s = none ∧ readHoldAt s = none) :
    readsGood s lo hi := by
  intro p hp
  rw [h.1, h.2] at hp
  simp at hp

/-- The ends of the three digit ranges, and the bytes beside them. -/
theorem wit_NibbleOfEveryCharacter :
    ([0x30#8, 0x39#8, 0x41#8, 0x46#8, 0x61#8, 0x66#8].all fun c => decide (0x30 ≤ c.toNat ∧ c.toNat ≤ 0x39 ∨
      0x41 ≤ c.toNat ∧ c.toNat ≤ 0x46 ∨ 0x61 ≤ c.toNat ∧ c.toNat ≤ 0x66)) = true ∧
    ¬ isHexDigit 0x2F#8 ∧ ¬ isHexDigit 0x3A#8 ∧ ¬ isHexDigit 0x40#8 ∧ ¬ isHexDigit 0x47#8 ∧ ¬ isHexDigit 0x60#8 ∧
    ¬ isHexDigit 0x67#8 := by
  unfold isHexDigit; decide

theorem wit_HexDigitOfLowNibble : (0x09#8).toNat % 16 ≤ 9 ∧ (0xF0#8).toNat % 16 ≤ 9 ∧ 9 < (0x0A#8).toNat % 16 ∧
    9 < (0xFF#8).toNat % 16 := by decide

theorem wit_CodecLaws : isHexDigit 0x30#8 ∧ isHexDigit 0x46#8 ∧ isHexDigit 0x66#8 ∧
    ¬ isHexDigit 0x2F#8 ∧ ¬ isHexDigit 0x47#8 ∧ ¬ isHexDigit 0x67#8 ∧
    encodeByte 0xAB#8 = encodeByte 0xAB#8 := by unfold isHexDigit; decide

/-- byteCount 0 and 255, with exactly the bytes needed. -/
theorem wit_RecordFields : (0x00#8).toNat + 1 ≤ [0xFF#8].length ∧
    (0xFF#8).toNat + 1 ≤ (List.replicate 256 0x11#8).length := by decide +kernel

theorem wit_LongEnoughDecodes :
    ¬ (1 ≤ ([] : List Byte).length ∧ 5 + (([] : List Byte).headD 0#8).toNat ≤ ([] : List Byte).length) ∧
    ¬ (1 ≤ [0x00#8, 0x00#8, 0x00#8, 0x01#8].length ∧
      5 + ([0x00#8, 0x00#8, 0x00#8, 0x01#8].headD 0#8).toNat ≤ [0x00#8, 0x00#8, 0x00#8, 0x01#8].length) := by
  decide

/-- The first and last value of every row. -/
theorem wit_TypeMap :
    (0x05#8).toNat = 0x05 ∧ 0x06 ≤ (0x06#8).toNat ∧ (0x07#8).toNat ≤ 0x07 ∧ 0x08 ≤ (0x08#8).toNat ∧
    (0x0F#8).toNat ≤ 0x0F ∧ 0x10 ≤ (0x10#8).toNat ∧ (0x1F#8).toNat ≤ 0x1F ∧ 0x20 ≤ (0x20#8).toNat ∧
    (0x3F#8).toNat ≤ 0x3F ∧ 0x40 ≤ (0x40#8).toNat ∧ (0x7F#8).toNat ≤ 0x7F ∧ 0x80 ≤ (0x80#8).toNat ∧
    0x80 ≤ (0xFF#8).toNat := by decide

/-- One well-formed instruction of each constructor. -/
theorem wit_DecodeOfEncode :
    ([Instr.data { address := 0xFFFF#16, data := List.replicate 255 0xA5#8, checksum := 0#8 },
      .eof (bare 0xFF#8), .esa (bare 1#8), .sa (bare 2#8), .ela (bare 3#8), .sla (bare 4#8),
      .unknown06_07 0x07#8 (bare 0#8), .unknown08_0F 0x0F#8 (bare 0#8), .unknown10_1F 0x10#8 (bare 0#8),
      .unknown20_3F 0x3F#8 (bare 0#8), .unknown40_7F 0x40#8 (bare 0#8),
      .unknown80_FF 0xFF#8 (bare 0#8)].map Instr.wellFormed).all id = true := by
  decide +kernel

/-- A record with one byte after its checksum. -/
theorem wit_EncodeOfDecode :
    decodeRec [0x00#8, 0x00#8, 0x00#8, 0x01#8, 0xFF#8, 0xAB#8] = .ok (.eof (bare 0xFF#8)) := by decide

theorem wit_ChecksumVerifies :
    (0x01#8).toNat + 4 = [0x01#8, 0x00#8, 0x00#8, 0x00#8, 0x55#8].length ∧
    decodeRec [0x00#8, 0x00#8, 0x00#8, 0x01#8, 0xFF#8] = .ok (.eof (bare 0xFF#8)) := by decide

/-- The first and the last byte that may change. -/
theorem wit_OneChangedByteIsDetected :
    decodeRec [0x00#8, 0x00#8, 0x00#8, 0x01#8, 0xFF#8] = .ok (.eof (bare 0xFF#8)) ∧
    verifyChecksum [0x00#8, 0x00#8, 0x00#8, 0x01#8, 0xFF#8] = true ∧ 4 ≤ 4 + (bare 0xFF#8).count ∧
    [0x00#8, 0x00#8, 0x00#8, 0x01#8, 0xFF#8][1]? = some 0x00#8 ∧
    [0x00#8, 0x00#8, 0x00#8, 0x01#8, 0xFF#8][4]? = some 0xFF#8 ∧ (0x01#8 : Byte) ≠ 0x00#8 ∧
    (0xFE#8 : Byte) ≠ 0xFF#8 := by decide

theorem wit_FramingConsumesTheLine :
    frameLine (passState .scan false "A\nB") = (.line (ascii "A\n"), 2) ∧
    frameLine { passState .decode false "" with longLinePolicy := .fault, host := quietHost longLine } =
      (.tooLong longLine, 521) ∧
    frameLine (passState .decode false "") = (.endOfInput, 0) ∧
    frameLine { passState .decode false "" with
      host := { HostSide.quiet with
        input := { bytes := ascii "AB", scanErrAt := none, decodeErrAt := some 2 } } } = (.readError, 2) ∧
    frameLine (silentState 2) = (.waiting, 2) ∧
    (frameLine { endlessState "A" with longLinePolicy := .fault }).1 = .waiting ∧
    (endlessState "A").host.input.cycle = ascii "A" := by
  decide +kernel

/-- The empty body, and the longest one; a final line, and an input with nothing left. -/
theorem wit_LinesWithinTheLimit :
    ((inputRest (passState .scan false "\nB") = [] ++ chLF :: ascii "B" ∧ readsGood (passState .scan false "\nB") 0 1) ∧
      chLF ∉ List.replicate 510 0x41#8 ∧ (List.replicate 510 0x41#8).length < 511) ∧
    ((passState .scan false "AB").host.input.cycle = [] ∧ inputRest (passState .scan false "AB") = ascii "AB" ∧
      chLF ∉ ascii "AB" ∧ (ascii "AB").length < 511 ∧ readsGood (passState .scan false "AB") 0 3) ∧
    (inputRest (passState .decode false "") = [] ∧ readsGood (passState .decode false "") 0 1) :=
  ⟨⟨⟨by decide +kernel, readsGood_of_none _ _ _ (by decide +kernel)⟩, by decide +kernel, by decide +kernel⟩,
    ⟨by decide +kernel, by decide +kernel, by decide +kernel, by decide +kernel,
      readsGood_of_none _ _ _ (by decide +kernel)⟩,
    by decide +kernel, readsGood_of_none _ _ _ (by decide +kernel)⟩

/-- The endless input of blank lines at stream position `p`. -/
def blankLines (p : Nat) : State := { endlessState "\n" with inPos := p }

theorem cycleFrom_single (b : Byte) (k n : Nat) : ∃ more, cycleFrom [b] k (n + 1) = b :: more := by
  simp [cycleFrom, List.range_succ_eq_map, Nat.mod_one]

theorem inputRest_blankLines (p : Nat) : ∃ more, inputRest (blankLines p) = chLF :: more := by
  have hb : (blankLines p).host.input.bytes = [] := rfl
  have hc : (blankLines p).host.input.cycle = [chLF] := by
    show ascii "\n" = [chLF]
    decide +kernel
  obtain ⟨more, h⟩ := cycleFrom_single chLF (p - 0) lineMax
  exact ⟨more, by unfold inputRest; rw [hb, hc, List.drop_nil, List.nil_append]; exact h⟩

theorem frameLine_blankLines (p : Nat) : frameLine (blankLines p) = (.line [chLF], p + 1) := by
  obtain ⟨more, h⟩ := inputRest_blankLines p
  unfold frameLine
  rw [h]
  simp [frameFrom, blankLines, endlessState, passReads, readErrAt, readHoldAt, State.reset, overlong]

theorem step_blankLines (p : Nat) : step (blankLines p) = .next (blankLines (p + 1)) := by
  rw [step_of_blockTurn _ _ (blockTurn_of_no_moves (blankLines p) rfl), blockStep_of_inPass _ (.inl rfl)]
  unfold lineStep
  rw [frameLine_blankLines]
  rfl

/-- An endless input of blank lines holds no EOF record. -/
theorem meetsNoEof_blankLines (p : Nat) : meetsNoEof (blankLines p) := by
  intro k
  induction k generalizing p with
  | zero =>
    intro t line r hr hf
    cases hr
    rw [frameLine_blankLines] at hf
    cases hf
    have hd : decodeLine [chLF] = .error .notEligible := by decide +kernel
    simp [hd]
  | succ k ih =>
    intro t line r hr
    have hs : core.step (blankLines p) = .next (blankLines (p + 1)) := step_blankLines p
    simp only [Host.Core.run, hs] at hr
    exact ih (p + 1) t line r hr

/-- A read that is not answered, in the middle of a line and at the cursor; an allocation that is not answered; and an
endless input of blank lines. -/
theorem wit_UnansweredRequestsHold :
    framesLine (silentState 2) (silentState 2) .waiting 2 ∧ readHoldAt (silentState 2) = some 2 ∧
    held (silentState 0) ∧ noReset (silentState 0) ∧
    held { passState .alloc false "" with host := { HostSide.quiet with allocAnswer := .silent } } ∧
    (inPass (blankLines 0) ∧ (blankLines 0).host.moves = [] ∧ (blankLines 0).host.input.cycle ≠ [] ∧
      meetsNoEof (blankLines 0)) := by
  refine ⟨?_, by decide +kernel, .inl ?_, ?_, .inr ⟨by decide +kernel, by decide +kernel, 0, by decide +kernel⟩,
    .inl rfl, rfl, by decide +kernel, meetsNoEof_blankLines 0⟩
  · unfold framesLine inPass; decide +kernel
  · unfold inPass; decide +kernel
  · intro p hp
    simp [silentState, HostSide.quiet] at hp

/-- SPLIT with 511 bytes before the LF; FAULT with content 511 (a CR not counted) and 520; FAULT with a final line of
512 bytes. -/
theorem wit_LongLines :
    (inputRest { State.reset with host := quietHost (List.replicate 511 0x41#8 ++ [chLF]) } =
        List.replicate 511 0x41#8 ++ [chLF] ∧ chLF ∉ List.replicate 511 0x41#8 ∧
      readsGood { State.reset with host := quietHost (List.replicate 511 0x41#8 ++ [chLF]) } 0 511) ∧
    (inputRest { State.reset with
        longLinePolicy := .fault, host := quietHost (List.replicate 511 0x41#8 ++ [chCR] ++ [chLF]) } =
        (List.replicate 511 0x41#8 ++ [chCR]) ++ chLF :: [] ∧
      readsGood { State.reset with
        longLinePolicy := .fault,
        host := quietHost (List.replicate 511 0x41#8 ++ [chCR] ++ [chLF]) } 0 513) ∧
    (inputRest { State.reset with longLinePolicy := .fault, host := quietHost (List.replicate 512 0x41#8) } =
        List.replicate 512 0x41#8 ∧ chLF ∉ List.replicate 512 0x41#8 ∧ List.replicate 512 0x41#8 ≠ [] ∧
      readsGood { State.reset with
        longLinePolicy := .fault, host := quietHost (List.replicate 512 0x41#8) } 0 513) :=
  ⟨⟨by decide +kernel, by decide +kernel, readsGood_of_none _ _ _ (by decide +kernel)⟩,
    ⟨by decide +kernel, readsGood_of_none _ _ _ (by decide +kernel)⟩,
    by decide +kernel, by decide +kernel, by decide +kernel, readsGood_of_none _ _ _ (by decide +kernel)⟩

theorem wit_AcceptedByteCount :
    frameLine (passState .scan false ":01001000AA45\n") = (.line (ascii ":01001000AA45\n"), 14) ∧
    decodeLine (ascii ":01001000AA45\n") =
      .ok (.data { address := 0x0010#16, data := [0xAA#8], checksum := 0x45#8 }) := by
  decide +kernel

/-- The scan pass; the decode pass without its check on a bad checksum; with it, on a good one; and after an `idle`
move of the host. -/
theorem wit_StepRunsDecodedInstruction :
    framesLine (passState .scan false ":00000001FE\n") (passState .scan false ":00000001FE\n")
      (.line (ascii ":00000001FE\n")) 12 ∧
    framesLine (passState .decode true ":00000001FE\n") (passState .decode true ":00000001FE\n")
      (.line (ascii ":00000001FE\n")) 12 ∧
    framesLine
      { passState .decode false "" with
        host := { quietHost (ascii ":00000001FF\n") with moves := [.idle] } }
      (passState .decode false ":00000001FF\n") (.line (ascii ":00000001FF\n")) 12 ∧
    decodeLine (ascii ":00000001FE\n") = .ok (.eof (bare 0xFE#8)) ∧
    decodeLine (ascii ":00000001FF\n") = .ok (.eof (bare 0xFF#8)) ∧
    verifyChecksum (lineRec (ascii ":00000001FF\n")) = true := by
  unfold framesLine inPass; decide +kernel

theorem wit_ChecksumCheckedOnlyInDecode :
    framesLine (passState .decode false ":0100000055AB\n") (passState .decode false ":0100000055AB\n")
      (.line (ascii ":0100000055AB\n")) 14 ∧
    framesLine (passState .decode true ":0100000055AB\n") (passState .decode true ":0100000055AB\n")
      (.line (ascii ":0100000055AB\n")) 14 ∧
    framesLine (passState .scan false ":0100000055AB\n") (passState .scan false ":0100000055AB\n")
      (.line (ascii ":0100000055AB\n")) 14 ∧
    decodeLine (ascii ":0100000055AB\n") =
      .ok (.data { address := 0#16, data := [0x55#8], checksum := 0xAB#8 }) ∧
    verifyChecksum (lineRec (ascii ":0100000055AB\n")) = false := by
  unfold framesLine inPass; decide +kernel

/-- A line of 8 bytes that starts with `:`, and a longer one that does not. -/
theorem wit_IneligibleLineIsSkipped :
    framesLine (passState .decode false ":000000\n") (passState .decode false ":000000\n")
      (.line (ascii ":000000\n")) 8 ∧ (ascii ":000000\n").length < 9 ∧
    framesLine (passState .scan false " :00000001FF\n") (passState .scan false " :00000001FF\n")
      (.line (ascii " :00000001FF\n")) 13 ∧ (ascii " :00000001FF\n").head? ≠ some 0x3A#8 := by
  unfold framesLine inPass; decide +kernel

/-- V-FRM-3: 9 bytes, the shortest eligible line, in both passes. -/
theorem wit_ShortLineOutcome :
    framesLine (passState .decode false ":0000000\n") (passState .decode false ":0000000\n")
      (.line (ascii ":0000000\n")) 9 ∧
    framesLine (passState .scan false ":0000000\n") (passState .scan false ":0000000\n")
      (.line (ascii ":0000000\n")) 9 ∧
    9 ≤ (ascii ":0000000\n").length ∧ (ascii ":0000000\n").head? = some 0x3A#8 ∧
    ¬ (1 ≤ (lineRec (ascii ":0000000\n")).length ∧
      5 + ((lineRec (ascii ":0000000\n")).headD 0#8).toNat ≤ (lineRec (ascii ":0000000\n")).length) := by
  unfold framesLine inPass; decide +kernel

theorem wit_OverlongLineOutcome :
    framesLine { passState .decode false "" with longLinePolicy := .fault, host := quietHost longLine }
      { passState .decode false "" with longLinePolicy := .fault, host := quietHost longLine } (.tooLong longLine) 521 ∧
    framesLine { passState .scan false "" with longLinePolicy := .fault, host := quietHost longLine }
      { passState .scan false "" with longLinePolicy := .fault, host := quietHost longLine } (.tooLong longLine) 521 := by
  unfold framesLine inPass; decide +kernel

/-- A failed first read of each pass, and a failed allocation. -/
theorem wit_IoErrorCauses :
    framesLine
      { passState .scan false "" with
        host := { HostSide.quiet with input := { bytes := [], scanErrAt := some 0, decodeErrAt := none } } }
      { passState .scan false "" with
        host := { HostSide.quiet with input := { bytes := [], scanErrAt := some 0, decodeErrAt := none } } }
      .readError 0 ∧
    framesLine
      { passState .decode false "" with
        host := { HostSide.quiet with input := { bytes := [], scanErrAt := none, decodeErrAt := some 0 } } }
      { passState .decode false "" with
        host := { HostSide.quiet with input := { bytes := [], scanErrAt := none, decodeErrAt := some 0 } } }
      .readError 0 ∧
    (blockTurn { passState .alloc false "" with host := { HostSide.quiet with allocAnswer := .fail } } =
        some { passState .alloc false "" with host := { HostSide.quiet with allocAnswer := .fail } } ∧
      allocSize { passState .alloc false "" with host := { HostSide.quiet with allocAnswer := .fail } } = some 0) := by
  unfold framesLine inPass; decide +kernel

theorem wit_EndOfInputEndsPass :
    framesLine { passState .scan false "" with call := .scanCall } { passState .scan false "" with call := .scanCall }
      .endOfInput 0 ∧
    framesLine (passState .scan false "") (passState .scan false "") .endOfInput 0 ∧
    framesLine (passState .decode false "") (passState .decode false "") .endOfInput 0 := by
  unfold framesLine inPass; decide +kernel

theorem wit_DataInScanPass : (passState .scan false "").phase = .scan := by decide +kernel

/-- Just below the buffer, one byte too long, and exactly fitting; a record without data at the buffer's end. -/
theorem wit_DataInDecodePass :
    (decodeState false 0x100#32 1 "").phase = .decode ∧
    exactAddress { address := 0x00FF#16, data := [], checksum := 0#8 } (decodeState false 0x100#32 1 "") <
      (decodeState false 0x100#32 1 "").minAddr.toNat ∧
    (decodeState false 0x100#32 1 "").bufSize <
      exactAddress { address := 0x0100#16, data := [1#8, 2#8], checksum := 0#8 } (decodeState false 0x100#32 1 "") -
        (decodeState false 0x100#32 1 "").minAddr.toNat + 2 ∧
    (decodeState false 0x100#32 1 "").minAddr.toNat ≤
      exactAddress { address := 0x0100#16, data := [1#8], checksum := 0#8 } (decodeState false 0x100#32 1 "") ∧
    exactAddress { address := 0x0101#16, data := [], checksum := 0#8 } (decodeState false 0x100#32 1 "") -
        (decodeState false 0x100#32 1 "").minAddr.toNat + 0 ≤ (decodeState false 0x100#32 1 "").bufSize := by
  decide +kernel

theorem wit_EofEndsPass :
    ({ passState .scan false "" with call := .scanCall }).phase = .scan ∧
    (passState .scan false "").phase = .scan ∧ (passState .scan false "").call = .decodeCall ∧
    (passState .decode false "").phase = .decode := by decide +kernel

/-- Exactly two data bytes, and three. -/
theorem wit_EsaSetsSegmentBias_ElaSetsLinearBias :
    ({ address := 0#16, data := [0xFF#8, 0xFF#8], checksum := 0#8 } : Record).data = 0xFF#8 :: 0xFF#8 :: [] ∧
    ({ address := 0#16, data := [0x12#8, 0x34#8, 0x56#8], checksum := 0#8 } : Record).data =
      0x12#8 :: 0x34#8 :: [0x56#8] := by decide

theorem wit_ShortExtensionRecord :
    (bare 0#8).count < 2 ∧ ({ address := 0#16, data := [1#8], checksum := 0#8 } : Record).count < 2 ∧
    (passState .scan false "").phase = .scan ∧ (passState .decode false "").phase = .decode := by decide +kernel

theorem wit_ReservedTypesRaise :
    Instr.unknown80_FF 0x80#8 (bare 0#8) = .unknown80_FF 0x80#8 (bare 0#8) := rfl

/-- A next state of one record of each type but Data. -/
theorem wit_NonDataFrame :
    ([Instr.eof (bare 0#8), .esa (bare 0#8), .sa (bare 0#8), .ela (bare 0#8), .sla (bare 0#8),
      .unknown06_07 0x06#8 (bare 0#8), .unknown08_0F 0x08#8 (bare 0#8), .unknown10_1F 0x10#8 (bare 0#8),
      .unknown20_3F 0x20#8 (bare 0#8), .unknown40_7F 0x40#8 (bare 0#8), .unknown80_FF 0x80#8 (bare 0#8)].all fun i =>
      i.typeByte != 0x00#8 && i.wellFormed && (nextOf (exec i (passState .decode false ""))).isSome) = true := by
  decide +kernel

/-- A stored byte with one before and one after it; the scan pass; and a record outside the buffer. -/
theorem wit_DataFrame :
    (nextOf (exec (.data { address := 1#16, data := [7#8], checksum := 0#8 }) (decodeState false 0#32 3 ""))).map
      imageBytes = some [none, some 7#8, none] ∧
    dataOffset { address := 1#16, data := [7#8], checksum := 0#8 } (decodeState false 0#32 3 "") = some 1 ∧
    dataOffset { address := 3#16, data := [7#8], checksum := 0#8 } (decodeState false 0#32 3 "") = none ∧
    (passState .scan false "").phase = .scan := by
  decide +kernel

theorem wit_BothBiasesCombine :
    (passState .decode false "").segBias = 0#32 ∧ (passState .decode false "").linBias = 0#32 := by decide +kernel

/-- A state at rest in each of the three phases, with a command to come. -/
theorem wit_ScanCommandStartsCall_DecodeCommandStartsCall :
    (∀ ph ∈ [Phase.idle, .done, .error], ph = .idle ∨ ph = .done ∨ ph = .error) ∧
    atRest { State.reset with
      phase := .error,
      host := { HostSide.quiet with moves := [.issue { cmd := .scan, variant := .linear, ignoreCs := true }] } } ∧
    atRest { State.reset with
      phase := .done,
      host := { HostSide.quiet with moves := [.issue { cmd := .decode, variant := .plain, ignoreCs := false }] } } := by
  unfold atRest; decide +kernel

theorem wit_CallCommandsWaitWhileBusy :
    busy { passState .scan false "" with
      host := { HostSide.quiet with moves := [.issue { cmd := .scan, variant := .plain, ignoreCs := false }] } } = true ∧
    busy { passState .alloc false "" with
      host := { HostSide.quiet with moves := [.present HostSide.quiet.input .ok] } } = true ∧
    busy { passState .decode false "" with
      host := { HostSide.quiet with moves := [.issue { cmd := .decode, variant := .plain, ignoreCs := true }] } } = true ∧
    (CommandPort.mk .scan .plain false).cmd = .scan ∧ (CommandPort.mk .decode .plain true).cmd = .decode := by
  decide +kernel

theorem wit_ResetLoadsTheTable_NopAndNewInput :
    ({ decodeState true 5#32 9 "" with
      host := { HostSide.quiet with
        moves := [.issue { cmd := .reset, variant := .plain, ignoreCs := false }] } }).host.moves =
      [.issue { cmd := .reset, variant := .plain, ignoreCs := false }] ∧
    ({ passState .scan false "" with
      host := { HostSide.quiet with
        moves := [.issue { cmd := .nop, variant := .plain, ignoreCs := false }] } }).host.moves =
      [.issue { cmd := .nop, variant := .plain, ignoreCs := false }] ∧
    atRest { State.reset with host := { HostSide.quiet with moves := [.present HostSide.quiet.input .fail] } } := by
  unfold atRest; decide +kernel

theorem wit_NoStepOutsideCall :
    blockTurn State.reset = some State.reset ∧ atRest State.reset ∧
    blockTurn { State.reset with host := { HostSide.quiet with moves := [.idle] } } = some State.reset := by
  unfold atRest; decide +kernel

/-- The sentinel; `min = max + 1`, the least size; the whole space; and `min = max + 2`, where there is no size. -/
theorem wit_AllocationSize :
    (State.reset.minAddr = 0xFFFFFFFF#32 ∧ State.reset.maxAddr = 0#32) ∧
    (¬ ((1#32 : Word32) = 0xFFFFFFFF#32 ∧ (0#32 : Word32) = 0#32) ∧ (1#32).toNat ≤ (0#32).toNat + 1) ∧
    (¬ ((0#32 : Word32) = 0xFFFFFFFF#32 ∧ (0xFFFFFFFF#32 : Word32) = 0#32) ∧
      (0#32).toNat ≤ (0xFFFFFFFF#32).toNat + 1) ∧
    (¬ ((2#32 : Word32) = 0xFFFFFFFF#32 ∧ (0#32 : Word32) = 0#32) ∧ (0#32).toNat + 1 < (2#32).toNat) ∧
    blockTurn { passState .alloc false "" with minAddr := 2#32 } =
      some { passState .alloc false "" with minAddr := 2#32 } := by
  decide +kernel

theorem wit_AllocationStartsDecodePass :
    blockTurn { passState .alloc false "" with minAddr := 4#32, maxAddr := 5#32 } =
      some { passState .alloc false "" with minAddr := 4#32, maxAddr := 5#32 } ∧
    allocSize { passState .alloc false "" with minAddr := 4#32, maxAddr := 5#32 } = some 2 ∧
    (passState .alloc false "").host.allocAnswer = .ok := by
  decide +kernel

theorem wit_ScanCallResult_DecodeCallResult :
    BiasShapes { passState .scan false "" with call := .scanCall, segBias := 0xFFFF0#32, linBias := 0xFFFF0000#32 } ∧
    BiasShapes (decodeState false 0#32 3 "") ∧ (decodeState false 0#32 3 "").phase = .decode ∧
    (decodeState false 0#32 3 "").call = .decodeCall := by
  unfold BiasShapes; decide +kernel

/-- A decode call that is done: three bytes granted, the last one written. -/
def doneState : State := { decodeState false 0#32 3 "" with phase := .done, image := [(2, 7#8)] }

/-- A gap, a written byte, an offset at the end, no buffer at all (a scan call that is done), and other phases. -/
theorem wit_ImageReadByHost :
    (doneState.phase = .done ∧ doneState.bufGranted = true ∧ 1 < doneState.bufSize ∧
      Memory.read doneState.image 1 = none) ∧
    (2 < doneState.bufSize ∧ Memory.read doneState.image 2 = some 7#8) ∧ doneState.bufSize ≤ 3 ∧
    (({ State.reset with phase := .done }).phase = .done ∧ ({ State.reset with phase := .done }).bufGranted = false) ∧
    ({ doneState with phase := .decode }).phase ≠ .done ∧ ({ doneState with phase := .error }).phase ≠ .done := by
  decide +kernel

/-- R74, R66: the written byte of the finished image, and the phases in which it is no result. -/
theorem test_readImage :
    readImage doneState 2 = .ok 7#8 ∧ readImage doneState 1 = .error .gapByte ∧
    readImage doneState 3 = .error .outsideBuffer ∧
    readImage { doneState with phase := .decode } 2 = .error .notResult ∧
    readImage { doneState with phase := .error } 2 = .error .notResult := by
  decide +kernel

/-- R240's table, and R37 in the empty image of V-FRM-1 (a scan call that is done). -/
theorem test_status :
    ([ErrKind.none, .addressTooLarge, .ioError, .badHexData, .unknownRecordType, .badChecksum, .entryAddressTooLarge,
      .bufferBound].map errCode = [0#4, 1#4, 2#4, 3#4, 4#4, 5#4, 6#4, 7#4]) ∧
    (nextOf (step { passState .scan false "" with call := .scanCall })).map
      (fun t => ((statusPort t).busy, (statusPort t).done, (statusPort t).error, (statusPort t).empty)) =
      some (false, true, false, true) := by
  decide +kernel

/-- In the middle of a decode pass: two bytes granted, one written, one line to come. -/
def midDecode : State :=
  { decodeState false 0#32 2 ":0100010066?\n" with maxAddr := 1#32, totalSize := 2#32, image := [(0, 0x55#8)] }

theorem wit_StepKeepsInv_EveryCallEnds_StatusAndErrorCodes :
    Inv midDecode ∧ busy midDecode = true ∧ midDecode.host.moves = [] ∧ Answers midDecode ∧
    (nextOf (step midDecode)).isSome = true := by
  refine ⟨⟨?_, ?_, ?_⟩, by decide +kernel, by decide +kernel, ⟨rfl, rfl, rfl, by decide +kernel⟩, by decide +kernel⟩
  · unfold BiasShapes; decide +kernel
  · unfold ImageSound; decide +kernel
  · constructor <;> decide +kernel

/-- A step of the decode pass that writes the image. -/
theorem wit_ImageWrittenOnlyInDecode :
    (nextOf (step (decodeState false 0#32 1 ":0100000055AA\n"))).map (fun t => decide (t.image ≠ [])) = some true := by
  decide +kernel

/-- A step that goes on, and one that raises. -/
theorem wit_ScanPassEffects :
    blockTurn (passState .scan false ":00000006FA\n") = some (passState .scan false ":00000006FA\n") ∧
    (nextOf (step (passState .scan false ":0100000055AA\n"))).isSome = true ∧
    (nextOf (step (passState .scan false ":00000006FA\n"))).map (fun t => t.phase) = some .error := by
  decide +kernel

/-- An EOF record ends the pass, and so does `End`. -/
theorem wit_WaysOutOfAPass :
    blockTurn (passState .scan false ":00000001FF\n") = some (passState .scan false ":00000001FF\n") ∧
    inPass (passState .scan false ":00000001FF\n") ∧
    (nextOf (step (passState .scan false ":00000001FF\n"))).map (fun t => t.phase) = some .alloc ∧
    (nextOf (step (passState .decode false ""))).map (fun t => t.phase) = some .done := by
  unfold inPass; decide +kernel

theorem wit_DecodePassKeepsScanResult :
    blockTurn (decodeState false 0#32 1 ":0100000055AA\n") = some (decodeState false 0#32 1 ":0100000055AA\n") ∧
    (nextOf (step (decodeState false 0#32 1 ":0100000055AA\n"))).isSome = true := by decide +kernel

theorem wit_ErrorsArePrecise :
    blockTurn (passState .decode false ":0000000\n") = some (passState .decode false ":0000000\n") ∧
    (passState .decode false ":0000000\n").phase ≠ .error ∧
    (nextOf (step (passState .decode false ":0000000\n"))).map (fun t => t.phase) = some .error := by
  decide +kernel

/-- A step in ERROR with nothing issued. -/
theorem wit_ErrorLeftOnlyByCommand :
    nextOf (step { State.reset with phase := .error, err := .ioError }) =
      some { State.reset with phase := .error, err := .ioError } := by decide +kernel

theorem wit_VariantHasNoEffect : (nextOf (step midDecode)).isSome = true := by decide +kernel

/-- The start of a decode call over a reserved type: its first line step raises. -/
theorem wit_UnknownTypeOnlyInScanPass :
    ∃ t, core.run 1 (acceptDecode .plain false (passState .idle false ":00000006FA\n")) = .next t ∧
      t.err = .unknownRecordType := by
  refine ⟨{ acceptDecode .plain false (passState .idle false ":00000006FA\n") with
    phase := .error, err := .unknownRecordType, inPos := 12 }, ?_, rfl⟩
  rfl

/-- The start of a decode call over one Data record: three steps on (scan line, end, allocation) it stands before the
same line in the decode pass. -/
theorem wit_PlacementFitsWithoutWrap :
    ∃ t, core.run 3 (acceptDecode .plain false (passState .idle false ":0100000055AA\n")) = .next t ∧
      t.phase = .decode ∧ frameLine t = (.line (ascii ":0100000055AA\n"), 14) ∧
      decodeLine (ascii ":0100000055AA\n") = .ok (.data { address := 0#16, data := [0x55#8], checksum := 0xAA#8 }) ∧
      exactAddress { address := 0#16, data := [0x55#8], checksum := 0xAA#8 } t + 1 ≤ 2 ^ 32 := by
  refine ⟨{ acceptDecode .plain false (passState .idle false ":0100000055AA\n") with
    phase := .decode, minAddr := 0#32, maxAddr := 0#32, totalSize := 1#32, bufSize := 1, bufGranted := true }, ?_, ?_⟩
  · rfl
  · decide +kernel

end Sys2Proof.Tests
end

section
/-! PROOFS. The fields of a record that is long enough (R93) and the record-type map over the whole type byte (R95). -/
namespace Sys2Proof.Proofs

/-- Settles O5: `decodeRec_cons` gives the decoded instruction, and the two laws of the type map (it keeps the type byte
and the record) reduce each field to the bytes it was read from. -/
theorem recordFields : Obligations.RecordFields := by
  intro bc a1 a0 ty rest hlen
  have hdec := (decodeRec_cons bc a1 a0 ty rest).trans (if_pos hlen)
  refine ⟨_, hdec, count_of_decodeRec _ _ hdec, ?address, typeByte_instrOfType .., ?data, ?checksum⟩ <;>
    rw [record_instrOfType]
  case address => exact toNat_bigEndian16 a1 a0
  case data => exact fun k hk => List.getElem?_take_of_lt hk
  case checksum =>
    have hin : bc.toNat < rest.length := by omega
    simp [hin]

/-- R96: each reserved row the map tests selects a range of type bytes (the last row, 0x80 to 0xFF, is what is left). -/
theorem rowHolds_iff_range (ty : Byte) :
    (rowHolds 0xFE#8 0x06#8 ty = true ↔ 0x06 ≤ ty.toNat ∧ ty.toNat ≤ 0x07) ∧
    (rowHolds 0xF8#8 0x08#8 ty = true ↔ 0x08 ≤ ty.toNat ∧ ty.toNat ≤ 0x0F) ∧
    (rowHolds 0xF0#8 0x10#8 ty = true ↔ 0x10 ≤ ty.toNat ∧ ty.toNat ≤ 0x1F) ∧
    (rowHolds 0xE0#8 0x20#8 ty = true ↔ 0x20 ≤ ty.toNat ∧ ty.toNat ≤ 0x3F) ∧
    (rowHolds 0xC0#8 0x40#8 ty = true ↔ 0x40 ≤ ty.toNat ∧ ty.toNat ≤ 0x7F) := by
  revert ty; decide +kernel

/-- Settles O7: read on the type byte's value, the tests of the type map are comparisons, so in each clause's range
arithmetic rejects the tests before its row and accepts the row's own. -/
theorem typeMap : Obligations.TypeMap := by
  intro ty r
  obtain ⟨h06, h08, h10, h20, h40⟩ := rowHolds_iff_range ty
  and_intros
  all_goals
    intro hty
    simp (disch := omega) only [instrOfType, ← BitVec.toNat_inj, BitVec.toNat_ofNat, h06, h08, h10, h20, h40,
      if_pos, if_neg]

end Sys2Proof.Proofs
end

section
/-! PROOFS. The nibble codec: the value of a character (R120), the digit of a nibble (R122) and the order of a byte's
two nibbles (R123, R124). -/
namespace Sys2Proof.Proofs
open Sys2Proof.Machine

/-- R120, the row `0` to `9`. -/
theorem toNat_hexToNibble_decimal {c : Byte} (hc : 0x30 ≤ c.toNat ∧ c.toNat ≤ 0x39) :
    (hexToNibble c).toNat = c.toNat - 0x30 := by
  rw [hexToNibble, if_pos hc]
  exact BitVec.toNat_sub_of_le (BitVec.le_def.mpr hc.1)

/-- R120, the row `A` to `F`. -/
theorem toNat_hexToNibble_upper {c : Byte} (hc : 0x41 ≤ c.toNat ∧ c.toNat ≤ 0x46) :
    (hexToNibble c).toNat = c.toNat - 0x37 := by
  rw [hexToNibble, if_neg (by omega), if_pos hc]
  exact BitVec.toNat_sub_of_le (BitVec.le_def.mpr (le_trans (by decide) hc.1))

/-- R120, the row `a` to `f`. -/
theorem toNat_hexToNibble_lower {c : Byte} (hc : 0x61 ≤ c.toNat ∧ c.toNat ≤ 0x66) :
    (hexToNibble c).toNat = c.toNat - 0x57 := by
  rw [hexToNibble, if_neg (by omega), if_neg (by omega), if_pos hc]
  exact BitVec.toNat_sub_of_le (BitVec.le_def.mpr (le_trans (by decide) hc.1))

/-- R120, every other byte. -/
theorem hexToNibble_of_not_isHexDigit {c : Byte} (hc : ¬ isHexDigit c) : hexToNibble c = 0#8 := by
  obtain ⟨hdecimal, hupper, hlower⟩ : _ ∧ _ ∧ _ := by simpa only [isHexDigit, not_or] using hc
  rw [hexToNibble, if_neg hdecimal, if_neg hupper, if_neg hlower]

/-- Settles O1: one lemma for each row of R120's table, and the bound of `hexToNibble_toNat_le`. -/
theorem nibbleOfEveryCharacter : Obligations.NibbleOfEveryCharacter := fun c =>
  ⟨toNat_hexToNibble_decimal, toNat_hexToNibble_upper, toNat_hexToNibble_lower, hexToNibble_of_not_isHexDigit,
    hexToNibble_toNat_le c⟩

/-- R122 and R124: the mask keeps the low nibble. -/
theorem toNat_and_lowNibble (b : Byte) : (b &&& 0x0F#8).toNat = b.toNat % 16 :=
  Nat.and_two_pow_sub_one_eq_mod b.toNat 4

/-- R124: the shift by four gives the high nibble. -/
theorem toNat_shiftRight_four (b : Byte) : (b >>> 4).toNat = b.toNat / 16 :=
  Nat.shiftRight_eq_div_pow b.toNat 4

/-- Settles O2: `nibbleToHex` tests the masked nibble, which is the byte's value mod 16; the sums do not wrap. -/
theorem hexDigitOfLowNibble : Obligations.HexDigitOfLowNibble := by
  intro n
  have hmask := toNat_and_lowNibble n
  constructor
  · intro hdecimal
    rw [nibbleToHex, if_pos (hmask ▸ hdecimal)]
    bv_omega
  · intro hletter
    rw [nibbleToHex, if_neg (by omega)]
    bv_omega

/-- R123: the shifted first nibble and the second share no bit, so their disjunction is a sum. -/
theorem toNat_decodeByte (c0 c1 : Byte) :
    (decodeByte c0 c1).toNat = 16 * (hexToNibble c0).toNat + (hexToNibble c1).toNat := by
  have hhigh := hexToNibble_toNat_le c0
  have hlow := hexToNibble_toNat_le c1
  have hfits : (hexToNibble c0 <<< 4).toNat = (hexToNibble c0).toNat <<< 4 := by
    rw [BitVec.toNat_shiftLeft, Nat.shiftLeft_eq]
    omega
  calc (decodeByte c0 c1).toNat
      = (hexToNibble c0).toNat <<< 4 ||| (hexToNibble c1).toNat := by rw [decodeByte, BitVec.toNat_or, hfits]
    _ = (hexToNibble c0).toNat <<< 4 + (hexToNibble c1).toNat :=
        (Nat.shiftLeft_add_eq_or_of_lt (by omega) _).symm
    _ = 16 * (hexToNibble c0).toNat + (hexToNibble c1).toNat := by rw [Nat.shiftLeft_eq, Nat.mul_comm]

/-- R124: the two digits of a byte are those of its value's quotient and remainder by 16. -/
theorem encodeByte_eq_div_mod (b : Byte) :
    encodeByte b = [nibbleToHex (BitVec.ofNat 8 (b.toNat / 16)), nibbleToHex (BitVec.ofNat 8 (b.toNat % 16))] := by
  simp only [encodeByte, ← toNat_shiftRight_four, ← toNat_and_lowNibble, BitVec.ofNat_toNat, BitVec.setWidth_eq]

/-- Settles O3, by the value of a decoded pair and the digits of an encoded byte. -/
theorem highNibbleFirst : Obligations.HighNibbleFirst :=
  ⟨toNat_decodeByte, encodeByte_eq_div_mod⟩

end Sys2Proof.Proofs
end

section
/-! PROOFS. The outcomes of a framed line (R154): the ineligible line (R143), the record that is too short for its
byteCount (R147) and the failing checksum (R151, R243). -/
namespace Sys2Proof.Proofs
open Sys2Proof.Machine

/-- R154, R250: on the block's turn in a pass, the step is what the framing outcome does, `in_pos` already moved. -/
theorem step_of_framesLine {s u : State} {f : Frame} {pos : Nat} (h : framesLine s u f pos) :
    step s = afterFrame f (atPos u pos) := by
  obtain ⟨hturn, hpass, hframe⟩ := h
  rw [step_of_blockTurn s u hturn, blockStep_of_inPass u hpass, lineStep, hframe]
  rfl

/-! ### The line decoder's answers (R143, R147) -/

/-- R143, with the values of HDR_MIN and of the colon. -/
theorem eligible_iff (line : List Byte) : eligible line = true ↔ 9 ≤ line.length ∧ line.head? = some 0x3A#8 := by
  rw [eligible, Bool.and_eq_true, decide_eq_true_iff, beq_iff_eq]
  rfl

theorem decodeLine_of_not_eligible {line : List Byte} (h : ¬ eligible line = true) :
    decodeLine line = .error .notEligible := if_neg h

theorem decodeLine_of_eligible {line : List Byte} (h : eligible line = true) :
    decodeLine line = decodeRec (lineRec line) := if_pos h

/-- R147: the bytes of a decoded record cover its header, data and checksum. -/
theorem length_of_decodeRec_ok {rec : List Byte} {i : Instr} (h : decodeRec rec = .ok i) :
    1 ≤ rec.length ∧ 5 + (rec.headD 0#8).toNat ≤ rec.length := by
  obtain ⟨bc, a1, a0, ty, rest, rfl, hlen, -⟩ := decodeRec_ok rec i h
  simp only [List.length_cons, List.headD_cons]
  omega

/-- R147: bytes that fail the length check decode to nothing, and `tooShort` is the only refusal. -/
theorem decodeRec_of_not_longEnough {rec : List Byte}
    (h : ¬ (1 ≤ rec.length ∧ 5 + (rec.headD 0#8).toNat ≤ rec.length)) : decodeRec rec = .error .tooShort := by
  cases hdec : decodeRec rec with
  | ok i => exact absurd (length_of_decodeRec_ok hdec) h
  | error e => rw [decodeRec_error rec e hdec]

/-! ### The line step, by the decoder's answer (R154) -/

theorem processLine_of_notEligible {line : List Byte} (h : decodeLine line = .error .notEligible) (u : State) :
    processLine line u = .next u := by
  rw [processLine, h]

theorem processLine_of_tooShort {line : List Byte} (h : decodeLine line = .error .tooShort) (u : State) :
    processLine line u = .next (malformed u) := by
  rw [processLine, h]

/-- R151: the checksum stands between a decoded record and its dispatch. -/
theorem processLine_of_ok {line : List Byte} {i : Instr} (h : decodeLine line = .ok i) (u : State) :
    processLine line u = if checksumFails (lineRec line) u then .next (raise .badChecksum u) else exec i u := by
  rw [processLine, h]

/-! ### The obligations -/

/-- Settles O19: the framed record either raises BadChecksum or is dispatched, by `checksumFails`, which asks for the
decode pass with `ignore_cs = 0`. -/
theorem checksumCheckedOnlyInDecode : Obligations.ChecksumCheckedOnlyInDecode := by
  intro s u line pos i hframe hdec hbad
  have hstep : step s = if checksumFails (lineRec line) (atPos u pos) then .next (raise .badChecksum (atPos u pos))
      else exec i (atPos u pos) := (step_of_framesLine hframe).trans (processLine_of_ok hdec _)
  have hfails : checksumFails (lineRec line) (atPos u pos) = true ↔ u.phase = .decode ∧ u.ignoreCs = false := by
    simp [checksumFails_iff, hbad]
  refine ⟨?checked, ?ignored, ?scanned⟩
  case checked => exact fun hchecked => hstep.trans (if_pos (hfails.mpr hchecked))
  case ignored =>
    rintro ⟨-, hcs⟩
    exact hstep.trans (if_neg (by simp [hfails, hcs]))
  case scanned =>
    intro hphase
    exact hstep.trans (if_neg (by simp [hfails, hphase]))

/-- Settles O20: either reason makes the line ineligible, and an ineligible line is skipped whatever the pass. -/
theorem ineligibleLineIsSkipped : Obligations.IneligibleLineIsSkipped := by
  intro s u line pos hframe hskip
  have hne : ¬ eligible line = true := by
    rw [eligible_iff, not_and_or, not_le]
    exact hskip
  exact (step_of_framesLine hframe).trans (processLine_of_notEligible (decodeLine_of_not_eligible hne) _)

/-- Settles O21: the eligible line is decoded to `tooShort`, so the step is that of a malformed line, which raises in
the decode pass only. -/
theorem shortLineOutcome : Obligations.ShortLineOutcome := by
  intro s u line pos hframe hlen hcolon hshort
  have hdec : decodeLine line = .error .tooShort :=
    (decodeLine_of_eligible ((eligible_iff line).mpr ⟨hlen, hcolon⟩)).trans (decodeRec_of_not_longEnough hshort)
  have hstep : step s = .next (malformed (atPos u pos)) :=
    (step_of_framesLine hframe).trans (processLine_of_tooShort hdec _)
  constructor
  · intro hphase
    have hraise := malformed_of_decode (atPos u pos) hphase
    exact hstep.trans (congrArg _ hraise)
  · intro hphase
    have hskip := malformed_of_not_decode (atPos u pos) (by simp [hphase])
    exact hstep.trans (congrArg _ hskip)

end Sys2Proof.Proofs
end

section
/-! PROOFS. What each record does when it is dispatched (R180): the Data record in either pass (R170 to R172), EOF
(R173), the extension records and their short forms (R174, R176, R179), the start-address records (R175, R177) and the
reserved types (R178). -/
namespace Sys2Proof.Proofs
open Sys2Proof.Machine

/-! ### Dispatch of a Data record (R171, R172, R180) -/

/-- R170, under the name the statements give the exact sum. -/
theorem toNat_effectiveAddress_eq_exactAddress (r : Record) (s : State) :
    (effectiveAddress r.address s).toNat = exactAddress r s := toNat_effectiveAddress r.address s

theorem exec_data_of_scan {s : State} (h : s.phase = .scan) (r : Record) :
    exec (.data r) s = .next (scanData r s) := if_pos h

theorem exec_data_of_decode {s : State} (h : s.phase = .decode) (r : Record) :
    exec (.data r) s = .next (placeData r s) := if_neg (by simp [h])

/-- R172: a placement that fails either bound check raises BufferBound. -/
theorem placeData_outside {r : Record} {s : State}
    (h : exactAddress r s < s.minAddr.toNat ∨ s.bufSize < exactAddress r s - s.minAddr.toNat + r.count) :
    placeData r s = raise .bufferBound s := by
  rw [← toNat_effectiveAddress_eq_exactAddress, ← dataOffset_eq_none] at h
  rw [placeData, h]

/-- R172: a placement that passes both bound checks is stored at `E - min_addr`. -/
theorem placeData_inside {r : Record} {s : State}
    (h : s.minAddr.toNat ≤ exactAddress r s ∧ exactAddress r s - s.minAddr.toNat + r.count ≤ s.bufSize) :
    placeData r s = { s with image := Memory.writeBytes s.image (exactAddress r s - s.minAddr.toNat) r.data } := by
  rw [← toNat_effectiveAddress_eq_exactAddress] at h ⊢
  rw [placeData, (dataOffset_eq_some r s _).mpr ⟨h.1, rfl, h.2⟩]

/-! ### Dispatch of an extension record (R174, R176, R179) -/

/-- R179: fewer than two data bytes make an ESA record malformed. -/
theorem exec_esa_of_short {r : Record} (h : r.count < 2) (s : State) : exec (.esa r) s = .next (malformed s) := by
  obtain ⟨t, hexec, hresult⟩ := exec_result (.esa r) s
  cases hresult with
  | segBias _ d0 d1 more hdata => simp [Record.count, hdata] at h
  | shortEsa _ _ ht => rw [hexec, ht]
  | reserved _ hreserved => simp at hreserved

/-- R179: fewer than two data bytes make an ELA record malformed. -/
theorem exec_ela_of_short {r : Record} (h : r.count < 2) (s : State) : exec (.ela r) s = .next (malformed s) := by
  obtain ⟨t, hexec, hresult⟩ := exec_result (.ela r) s
  cases hresult with
  | linBias _ d0 d1 more hdata => simp [Record.count, hdata] at h
  | shortEla _ _ ht => rw [hexec, ht]
  | reserved _ hreserved => simp at hreserved

/-! ### The obligations -/

/-- Settles O25, by the value of the effective address. -/
theorem effectiveAddressSum : Obligations.EffectiveAddressSum :=
  fun r s => toNat_effectiveAddress r.address s

/-- Settles O26: the registers `scanData` writes, each by the value of its word operation. -/
theorem dataInScanPass : Obligations.DataInScanPass := by
  intro r s hscan
  refine ⟨scanData r s, exec_data_of_scan hscan r, ?min, ?max, ?total, rfl⟩
  case min => rw [scanData_minAddr, toNat_wordMin, toNat_effectiveAddress_eq_exactAddress]
  case max => rw [scanData_maxAddr, toNat_wordMax, toNat_maxCandidate, toNat_effectiveAddress_eq_exactAddress]
  case total => rw [scanData_totalSize, BitVec.toNat_add, toNat_countWord, Nat.add_mod_mod]

/-- Settles O27: the two outcomes of the placement, and the reads inside and outside the bytes stored. -/
theorem dataInDecodePass : Obligations.DataInDecodePass := by
  intro r s hdecode
  have hexec := exec_data_of_decode hdecode r
  constructor
  · intro houtside
    rw [hexec, placeData_outside houtside, raise]
  · intro hinside
    rw [placeData_inside hinside] at hexec
    exact ⟨_, hexec, rfl, fun k hk => memory_read_writeBytes_inside r.data s.image _ k hk,
      fun off hoff => memory_read_writeBytes_outside r.data s.image _ off hoff⟩

/-- Settles O28: dispatch ends the pass, and `endPass` has one law for each of the three ends. -/
theorem eofEndsPass : Obligations.EofEndsPass := by
  intro r s
  have hexec : exec (.eof r) s = .next (endPass s) := rfl
  rw [hexec]
  refine ⟨?scanCall, ?decodeCall, ?decodePass⟩
  case scanCall => exact fun ⟨hscan, hcall⟩ => congrArg _ (endPass_of_scanCall s hscan hcall)
  case decodeCall => exact fun ⟨hscan, hcall⟩ => congrArg _ (endPass_of_decodeCall s hscan hcall)
  case decodePass => exact fun hdecode => congrArg _ (endPass_of_decode s hdecode)

/-- Settles O29: with two data bytes ESA takes the operand of R97, whose value is `segmentBiasOf_eq`. -/
theorem esaSetsSegmentBias : Obligations.EsaSetsSegmentBias := by
  intro r s d0 d1 more hdata
  rw [exec, execEsa, hdata, ← segmentBiasOf_eq]

/-- Settles O30: with two data bytes ELA takes the operand of R98, whose value is `linearBiasOf_eq`. -/
theorem elaSetsLinearBias : Obligations.ElaSetsLinearBias := by
  intro r s d0 d1 more hdata
  rw [exec, execEla, hdata, ← linearBiasOf_eq]

/-- Settles O31: a short extension record is malformed, which raises in the decode pass only. -/
theorem shortExtensionRecord : Obligations.ShortExtensionRecord := by
  intro r s hshort
  rw [exec_esa_of_short hshort, exec_ela_of_short hshort]
  constructor
  · intro hscan
    rw [malformed_of_not_decode s (by simp [hscan])]
    exact ⟨rfl, rfl⟩
  · intro hdecode
    rw [malformed_of_decode s hdecode]
    exact ⟨rfl, rfl⟩

/-- Settles O32: both arms of the dispatcher answer the state they are given. -/
theorem startRecordsChangeNothing : Obligations.StartRecordsChangeNothing :=
  fun _ _ => ⟨rfl, rfl⟩

/-- Settles O33: each of the six reserved rows has an arm of its own, and all six raise the same error. -/
theorem reservedTypesRaise : Obligations.ReservedTypesRaise := by
  rintro ty r s i (rfl | rfl | rfl | rfl | rfl | rfl) <;> rfl

end Sys2Proof.Proofs
end

section
/-! PROOFS. Pass control: the end of the input (R217), the allocation (R212, R213, R215) and the result of a decode
call (R218, R219). -/
namespace Sys2Proof.Proofs
open Sys2Proof.Machine

/-! ### The size and the step of the allocation (R211 to R215) -/

/-- R211: `empty` is the level of the sentinel. -/
theorem empty_iff (s : State) : empty s = true ↔ s.minAddr = 0xFFFFFFFF#32 ∧ s.maxAddr = 0#32 := by
  rw [empty, Bool.and_eq_true, beq_iff_eq, beq_iff_eq]

theorem allocSize_of_sentinel {s : State} (h : s.minAddr = 0xFFFFFFFF#32 ∧ s.maxAddr = 0#32) :
    allocSize s = some 0 := if_pos ((empty_iff s).mpr h)

/-- R212 beside the sentinel: the one comparison that decides whether there is a size. -/
theorem allocSize_of_not_sentinel {s : State} (h : ¬ (s.minAddr = 0xFFFFFFFF#32 ∧ s.maxAddr = 0#32)) :
    allocSize s = if s.minAddr.toNat ≤ s.maxAddr.toNat + 1 then some (s.maxAddr.toNat + 1 - s.minAddr.toNat)
      else none := if_neg (mt (empty_iff s).mp h)

/-- R213: on the block's turn in ALLOC, the step is the allocation step. -/
theorem step_of_alloc {s u : State} (hturn : blockTurn s = some u) (hphase : u.phase = .alloc) :
    step s = .next (allocStep u) :=
  (step_of_blockTurn s u hturn).trans (blockStep_of_alloc u hphase)

theorem allocStep_of_no_size {s : State} (h : allocSize s = none) : allocStep s = raise .bufferBound s := by
  rw [allocStep, h]

theorem allocStep_of_ok {s : State} {n : Nat} (hsize : allocSize s = some n) (hok : s.host.allocAnswer = .ok) :
    allocStep s = startDecodePass n s := by
  simp only [allocStep, hsize, hok]

/-! ### The bytes of a result (R219) -/

theorem length_imageBytes (s : State) : (imageBytes s).length = s.bufSize := by
  rw [imageBytes, List.length_map, List.length_range]

theorem getElem?_imageBytes (s : State) {k : Nat} (hk : k < s.bufSize) :
    (imageBytes s)[k]? = some (Memory.read s.image k) := by
  rw [imageBytes, List.getElem?_map, List.getElem?_range hk, Option.map_some]

/-- R219: in DONE a decode call has its result. -/
theorem decodeResult_of_done {s : State} (hphase : s.phase = .done) (hcall : s.call = .decodeCall) :
    decodeResult s =
      some { buffer := imageBytes s, baseAddress := s.baseAddr, entryAddress := s.entryAddr } :=
  if_pos ⟨hphase, hcall⟩

/-! ### The obligations -/

/-- Settles O24: framing's `End` ends the pass, and `endPass` has one law for each of the three ends. -/
theorem endOfInputEndsPass : Obligations.EndOfInputEndsPass := by
  intro s u pos hframe
  have hstep : step s = .next (endPass (atPos u pos)) := step_of_framesLine hframe
  refine ⟨?scanCall, ?decodeCall, ?decodePass⟩
  case scanCall =>
    exact fun ⟨hscan, hcall⟩ => hstep.trans (congrArg _ (endPass_of_scanCall (atPos u pos) hscan hcall))
  case decodeCall =>
    exact fun ⟨hscan, hcall⟩ => hstep.trans (congrArg _ (endPass_of_decodeCall (atPos u pos) hscan hcall))
  case decodePass =>
    exact fun hdecode => hstep.trans (congrArg _ (endPass_of_decode (atPos u pos) hdecode))

/-- Settles O43: the sentinel, the two sides of the one comparison, and the error the missing size raises. -/
theorem allocationSize : Obligations.AllocationSize := by
  intro s
  refine ⟨allocSize_of_sentinel, ?sized, ?unsized⟩
  case sized => exact fun hne hle => (allocSize_of_not_sentinel hne).trans (if_pos hle)
  case unsized =>
    intro hne hlt
    have hnone : allocSize s = none := (allocSize_of_not_sentinel hne).trans (if_neg (by omega))
    refine ⟨hnone, fun s' hturn hphase => ?_⟩
    rw [step_of_alloc hturn hphase, allocStep_of_no_size hnone, raise]

/-- Settles O44: with a size and the answer `Ok` the allocation step starts the decode pass. -/
theorem allocationStartsDecodePass : Obligations.AllocationStartsDecodePass := by
  intro s u n hturn hphase hsize hok
  rw [step_of_alloc hturn hphase, allocStep_of_ok hsize hok, startDecodePass, passStart]

/-- Settles O46: the decode pass ends in `decodeEnd`, which is DONE with its call kept; `BiasShapes` gives the entry
address (R30). -/
theorem decodeCallResult : Obligations.DecodeCallResult := by
  intro s hshapes hphase hcall
  obtain ⟨-, -, hentry⟩ := hshapes
  rw [endPass_of_decode s hphase]
  exact ⟨_, decodeResult_of_done rfl hcall, rfl, length_imageBytes (decodeEnd s),
    fun _ hk => getElem?_imageBytes (decodeEnd s) hk, rfl, hentry⟩

end Sys2Proof.Proofs
end

section
/-! PROOFS. Exceptions: what raises IoError (R241) and what leaves `ERROR` (R251). -/
namespace Sys2Proof.Proofs
open Sys2Proof.Machine

/-- R213: the allocation that the host fails raises IoError. -/
theorem allocStep_of_fail {s : State} {n : Nat} (hsize : allocSize s = some n) (hfail : s.host.allocAnswer = .fail) :
    allocStep s = raise .ioError s := by
  simp only [allocStep, hsize, hfail]

/-- The block's turn changes at most the host's side: the `idle` move that the host spends on it. -/
theorem host_only_of_blockTurn {s u : State} (hturn : blockTurn s = some u) : u = { s with host := u.host } := by
  rcases blockTurn_eq s u hturn with rfl | rfl
  · rfl
  · rfl

/-- R41: a NOP command is no operation. -/
theorem command_of_nop {p : CommandPort} (h : p.cmd = .nop) (s : State) : command p s = s := by
  rw [command, h]

/-! ### The obligations -/

/-- Settles O23: a failed read and a failed allocation each raise IoError in the state of the block's turn, and `raise`
writes `err` and `phase` only. -/
theorem ioErrorCauses : Obligations.IoErrorCauses := by
  refine ⟨?read, ?allocation⟩
  case read =>
    intro s u pos hframe
    have hstep : step s = .next (raise .ioError (atPos u pos)) := step_of_framesLine hframe
    rw [hstep, raise, atPos]
  case allocation =>
    intro s u n hturn hphase hsize hfail
    rw [step_of_alloc hturn hphase, allocStep_of_fail hsize hfail, raise]

/-- Settles O56, along the three things a step can be: in `ERROR` the block's own step does nothing, a command other
than NOP is one of the three named, and a new input is the host's side. -/
theorem errorLeftOnlyByCommand : Obligations.ErrorLeftOnlyByCommand := by
  intro s t herror hstep
  rcases step_cases s with ⟨u, hturn, hown⟩ | ⟨p, more, hmoves, -, hissue⟩ | ⟨input, answer, more, -, -, hinput⟩
  · have hu : u = { s with host := u.host } := host_only_of_blockTurn hturn
    have hrest : atRest u := .inr (.inr ((congrArg State.phase hu).trans herror))
    rw [hown, blockStep_of_atRest u hrest] at hstep
    cases hstep
    exact .inr hu
  · cases hcmd : p.cmd with
    | nop =>
      rw [hissue, command_of_nop hcmd] at hstep
      cases hstep
      exact .inr rfl
    | reset => exact .inl ⟨p, more, hmoves, .inl hcmd⟩
    | scan => exact .inl ⟨p, more, hmoves, .inr (.inl hcmd)⟩
    | decode => exact .inl ⟨p, more, hmoves, .inr (.inr hcmd)⟩
  · rw [hinput] at hstep
    cases hstep
    exact .inr rfl

end Sys2Proof.Proofs
end

section
/-! PROOFS. The codec laws (R125), and the encoding of an instruction against its decoding (R92 to R96, R103, R147). -/
namespace Sys2Proof.Proofs
open Sys2Proof.Machine

/-! ### The nibble codec (R125) -/

/-- R125 (b) and (c): a character survives the way through its nibble, in upper case, exactly when it is a hex digit. -/
theorem nibbleToHex_hexToNibble_iff (c : Byte) : nibbleToHex (hexToNibble c) = upperCase c ↔ isHexDigit c := by
  unfold isHexDigit
  revert c; decide +kernel

theorem shiftRight_four_decodeByte (c0 c1 : Byte) : decodeByte c0 c1 >>> 4 = hexToNibble c0 := by
  have hlow := hexToNibble_toNat_le c1
  apply BitVec.eq_of_toNat_eq
  rw [toNat_shiftRight_four, toNat_decodeByte]
  omega

theorem and_lowNibble_decodeByte (c0 c1 : Byte) : decodeByte c0 c1 &&& 0x0F#8 = hexToNibble c1 := by
  have hlow := hexToNibble_toNat_le c1
  apply BitVec.eq_of_toNat_eq
  rw [toNat_and_lowNibble, toNat_decodeByte]
  omega

/-- R125: the pair comes back in upper case exactly when both characters are hex digits. -/
theorem encodeByte_decodeByte_iff (c0 c1 : Byte) :
    encodeByte (decodeByte c0 c1) = [upperCase c0, upperCase c1] ↔ isHexDigit c0 ∧ isHexDigit c1 := by
  rw [encodeByte, shiftRight_four_decodeByte, and_lowNibble_decodeByte, List.cons_eq_cons, List.cons_eq_cons,
    nibbleToHex_hexToNibble_iff, nibbleToHex_hexToNibble_iff]
  simp

/-- R125 (a), as one pair. -/
theorem pairs_encodeByte (b : Byte) : pairs (encodeByte b) = [b] := by
  simp [encodeByte, pairs]

/-- Settles O4: the two directions of the codec, each by its own law; `G` decodes as `0` does. -/
theorem codecLaws : Obligations.CodecLaws := by
  refine ⟨pairs_encodeByte, ?digits, ?invalid, by decide, ?injective, ?notInjective⟩
  case digits => exact fun c0 c1 h0 h1 => (encodeByte_decodeByte_iff c0 c1).mpr ⟨h0, h1⟩
  case invalid =>
    intro c0 c1 hbad hback
    obtain ⟨h0, h1⟩ := (encodeByte_decodeByte_iff c0 c1).mp hback
    exact hbad.elim (absurd h0) (absurd h1)
  case injective =>
    intro b b' heq
    have hpairs : [b] = [b'] := by rw [← pairs_encodeByte b, heq, pairs_encodeByte]
    exact List.singleton_inj.mp hpairs
  case notInjective => exact ⟨0x47#8, 0x31#8, 0x30#8, 0x31#8, by decide, by decide⟩

/-! ### The length check (R147) -/

/-- R147: bytes that pass the length check hold a header, so they are decoded. -/
theorem decodeRec_of_longEnough {rec : List Byte}
    (h : 1 ≤ rec.length ∧ 5 + (rec.headD 0#8).toNat ≤ rec.length) : ∃ i, decodeRec rec = .ok i := by
  match rec, h with
  | bc :: a1 :: a0 :: ty :: rest, ⟨_, hlen⟩ =>
    have hrest : bc.toNat + 1 ≤ rest.length := by
      simp only [List.length_cons, List.headD_cons] at hlen
      omega
    exact ⟨_, (decodeRec_cons bc a1 a0 ty rest).trans (if_pos hrest)⟩
  | [], h | [_], h | [_, _], h | [_, _, _], h => simp at h <;> omega

/-- Settles O6: the decoder answers exactly for bytes that pass the length check, and its only refusal is `tooShort`. -/
theorem longEnoughDecodes : Obligations.LongEnoughDecodes := fun _ =>
  ⟨⟨fun ⟨_, hdec⟩ => length_of_decodeRec_ok hdec, decodeRec_of_longEnough⟩, decodeRec_of_not_longEnough⟩

/-! ### An instruction's fields and the bytes they are written as (R93, R95) -/

/-- R10: the byteCount of a well-formed instruction fits its byte. -/
theorem count_le_of_wellFormed {i : Instr} (h : i.wellFormed = true) : i.record.count ≤ 255 := by
  cases i with
  | data r | eof r | esa r | sa r | ela r | sla r => exact of_decide_eq_true h
  | unknown06_07 ty r | unknown08_0F ty r | unknown10_1F ty r | unknown20_3F ty r | unknown40_7F ty r
  | unknown80_FF ty r => exact of_decide_eq_true (Bool.and_eq_true_iff.mp h).2

/-- R95, R96: the type map gives a well-formed instruction back, by the law of its constructor. -/
theorem instrOfType_typeByte_record {i : Instr} (h : i.wellFormed = true) :
    instrOfType i.typeByte i.record = i := by
  cases i with
  | data r => exact Laws.TypeMapKeeps.data r h
  | eof r => exact Laws.TypeMapKeeps.eof r h
  | esa r => exact Laws.TypeMapKeeps.esa r h
  | sa r => exact Laws.TypeMapKeeps.sa r h
  | ela r => exact Laws.TypeMapKeeps.ela r h
  | sla r => exact Laws.TypeMapKeeps.sla r h
  | unknown06_07 ty r => exact Laws.TypeMapKeeps.unknown06_07 ty r h
  | unknown08_0F ty r => exact Laws.TypeMapKeeps.unknown08_0F ty r h
  | unknown10_1F ty r => exact Laws.TypeMapKeeps.unknown10_1F ty r h
  | unknown20_3F ty r => exact Laws.TypeMapKeeps.unknown20_3F ty r h
  | unknown40_7F ty r => exact Laws.TypeMapKeeps.unknown40_7F ty r h
  | unknown80_FF ty r => exact Laws.TypeMapKeeps.unknown80_FF ty r h

/-- R93: the address is its own two bytes, high then low. -/
theorem bigEndian16_of_bytes (a : Word16) : bigEndian16 ((a >>> 8).setWidth 8) (a.setWidth 8) = a := by
  have ha := a.isLt
  apply BitVec.eq_of_toNat_eq
  rw [toNat_bigEndian16, BitVec.toNat_setWidth, BitVec.toNat_setWidth, BitVec.toNat_ushiftRight,
    Nat.shiftRight_eq_div_pow]
  omega

theorem highByte_bigEndian16 (hi lo : Byte) : (bigEndian16 hi lo >>> 8).setWidth 8 = hi := by
  have hhi := hi.isLt
  have hlo := lo.isLt
  apply BitVec.eq_of_toNat_eq
  rw [BitVec.toNat_setWidth, BitVec.toNat_ushiftRight, Nat.shiftRight_eq_div_pow, toNat_bigEndian16]
  omega

theorem lowByte_bigEndian16 (hi lo : Byte) : (bigEndian16 hi lo).setWidth 8 = lo := by
  have hlo := lo.isLt
  apply BitVec.eq_of_toNat_eq
  rw [BitVec.toNat_setWidth, toNat_bigEndian16]
  omega

/-! ### Decoding and encoding (R92, R103, R147, R149) -/

/-- R92, R93: the decoder reads back each field the encoder wrote. -/
theorem decodeRec_encodeRec {i : Instr} (h : i.wellFormed = true) : decodeRec (encodeRec i) = .ok i := by
  have hcount : (BitVec.ofNat 8 i.record.count).toNat = i.record.data.length := by
    have hle := count_le_of_wellFormed h
    rw [BitVec.toNat_ofNat, Nat.mod_eq_of_lt (by omega), Record.count]
  have hlen : i.record.data.length + 1 ≤ (i.record.data ++ [i.record.checksum]).length := by simp
  have hsum : (i.record.data ++ [i.record.checksum]).getD i.record.data.length 0#8 = i.record.checksum := by simp
  rw [encodeRec, decodeRec_cons, hcount, if_pos hlen, hsum, List.take_left, bigEndian16_of_bytes,
    instrOfType_typeByte_record h]

/-- R103, R143, R144: the line of record bytes is eligible, and its pairs are those bytes. -/
theorem decodeLine_encode (i : Instr) : decodeLine (encode i) = decodeRec (encodeRec i) := by
  rw [encode, decodeLine_of_eligible (eligible_lineText _ (by simp [encodeRec])), lineRec_lineText]

/-- Settles O8: a text line is decoded as its record bytes are, and the decoder reads back each field the encoder
wrote, which the type map puts together again. -/
theorem decodeOfEncode : Obligations.DecodeOfEncode := fun i h =>
  ⟨decodeRec_encodeRec h, (decodeLine_encode i).trans (decodeRec_encodeRec h)⟩

/-- Settles O9: the type map keeps the type byte and the record, so the encoder writes each byte the decoder read, and
stops after the checksum. -/
theorem encodeOfDecode : Obligations.EncodeOfDecode := by
  intro rec i hdec
  obtain ⟨bc, a1, a0, ty, rest, rfl, hlen, rfl⟩ := decodeRec_ok rec i hdec
  have hbc : (rest.take bc.toNat).length = bc.toNat := List.length_take_of_le (by omega)
  constructor
  · have hbyte := bc.isLt
    exact wellFormed_instrOfType ty _ (decide_eq_true (by rw [Record.count, hbc]; omega))
  · have hin : bc.toNat < rest.length := by omega
    have hdata : rest.take bc.toNat ++ [rest.getD bc.toNat 0#8] = rest.take (bc.toNat + 1) := by
      rw [List.getD_eq_getElem _ _ hin, List.take_append_getElem]
    rw [encodeRec, typeByte_instrOfType, record_instrOfType, Record.count, hbc, highByte_bigEndian16,
      lowByte_bigEndian16, hdata, BitVec.ofNat_toNat, BitVec.setWidth_eq,
      show 5 + bc.toNat = bc.toNat + 1 + 4 by omega]
    rfl

/-- Settles O10: each line is a closed list of characters, which the decoder reads by computation. -/
theorem writtenLinesDecode : Obligations.WrittenLinesDecode :=
  ⟨rfl, rfl, rfl, rfl, rfl, rfl, rfl⟩

end Sys2Proof.Proofs
end

section
/-! PROOFS. The checksum (R150, R152) and the laws about it (R153). -/
namespace Sys2Proof.Proofs
open Sys2Proof.Machine

/-! ### The sum of bytes -/

theorem byteSum_append (xs ys : List Byte) : byteSum (xs ++ ys) = byteSum xs + byteSum ys := by
  simp [byteSum]

@[simp] theorem byteSum_singleton (b : Byte) : byteSum [b] = b.toNat := by
  simp [byteSum]

/-- Changing one byte changes the exact sum by the difference of the two values. -/
theorem byteSum_set {bytes : List Byte} {k : Nat} {old : Byte} (h : bytes[k]? = some old) (new : Byte) :
    byteSum (bytes.set k new) + old.toNat = byteSum bytes + new.toNat := by
  have hin : k < bytes.length := (List.getElem?_eq_some_iff.mp h).1
  have hold : bytes = bytes.take k ++ ([old] ++ bytes.drop (k + 1)) := by
    have hdrop := List.drop_eq_getElem?_toList_append (l := bytes) (i := k)
    rw [h] at hdrop
    exact (List.take_append_drop k bytes).symm.trans (congrArg _ hdrop)
  have hnew : bytes.set k new = bytes.take k ++ ([new] ++ bytes.drop (k + 1)) :=
    List.set_eq_take_append_cons_drop.trans (if_pos hin)
  have hsumNew := congrArg byteSum hnew
  have hsumOld := congrArg byteSum hold
  simp only [byteSum_append, byteSum_singleton] at hsumNew hsumOld
  omega

/-! ### The checksum byte (R152) -/

/-- R152: the computed checksum as a number. -/
theorem toNat_computeChecksum (bytes : List Byte) :
    (computeChecksum bytes).toNat = (256 - byteSum bytes % 256) % 256 := by
  rw [computeChecksum, BitVec.toNat_ofNat]
  exact Nat.mod_mod _ _

/-- R150, R152: the one last byte that brings the sum to 0 modulo 256 is the computed checksum. -/
theorem byteSum_concat_mod_eq_zero_iff (body : List Byte) (c : Byte) :
    byteSum (body ++ [c]) % 256 = 0 ↔ c = computeChecksum body := by
  have hc := c.isLt
  rw [byteSum_append, byteSum_singleton, ← BitVec.toNat_inj, toNat_computeChecksum]
  omega

theorem verifyChecksum_iff (rec : List Byte) :
    verifyChecksum rec = true ↔ byteSum (coveredBytes rec) % 256 = 0 := beq_iff_eq

/-- R150: of a decoded record the checksum covers the first `5 + byteCount` bytes. -/
theorem coveredBytes_of_decodeRec {rec : List Byte} {i : Instr} (h : decodeRec rec = .ok i) :
    coveredBytes rec = rec.take (5 + i.record.count) := by
  rw [coveredBytes, count_of_decodeRec rec i h]

/-- R93: the last covered byte of a decoded record is its checksum. -/
theorem coveredBytes_eq_concat {rec : List Byte} {i : Instr} (h : decodeRec rec = .ok i) :
    coveredBytes rec = rec.take (4 + i.record.count) ++ [i.record.checksum] := by
  rw [coveredBytes_of_decodeRec h]
  obtain ⟨bc, a1, a0, ty, rest, rfl, hlen, rfl⟩ := decodeRec_ok rec i h
  have hin : bc.toNat < rest.length := by omega
  have hbc : (rest.take bc.toNat).length = bc.toNat := List.length_take_of_le (by omega)
  rw [record_instrOfType, Record.count, hbc, List.getD_eq_getElem _ _ hin,
    show 5 + bc.toNat = bc.toNat + 1 + 4 by omega, Nat.add_comm 4]
  simp [List.take_append_getElem]

/-! ### The obligations -/

/-- Settles O11: the covered bytes end in the checksum byte, and the computed one is the only byte there that brings the
sum to 0. -/
theorem checksumVerifies : Obligations.ChecksumVerifies := by
  refine ⟨toNat_computeChecksum, ?closed, ?decoded⟩
  case closed =>
    intro b0 bs hlen
    have hall : coveredBytes ((b0 :: bs) ++ [computeChecksum (b0 :: bs)]) =
        (b0 :: bs) ++ [computeChecksum (b0 :: bs)] := by
      apply List.take_of_length_le
      simp only [List.length_cons, List.length_append, List.length_nil, List.cons_append, List.headD_cons] at hlen ⊢
      omega
    rw [verifyChecksum_iff, hall]
    exact (byteSum_concat_mod_eq_zero_iff _ _).mpr rfl
  case decoded =>
    intro rec i hdec
    rw [verifyChecksum_iff, coveredBytes_eq_concat hdec, byteSum_concat_mod_eq_zero_iff]

/-- Settles O12: the byteCount is not the byte that changes, so the same bytes are covered, and their sum moves by less
than 256. -/
theorem oneChangedByteIsDetected : Obligations.OneChangedByteIsDetected := by
  intro rec i k old new hdec hverify hlo hhi hold hne
  have hcovered : coveredBytes (rec.set k new) = (coveredBytes rec).set k new := by
    have hhead : (rec.set k new).headD 0#8 = rec.headD 0#8 := by
      rw [List.headD_eq_head?_getD, List.head?_eq_getElem?, List.getElem?_set_ne (by omega),
        ← List.head?_eq_getElem?, ← List.headD_eq_head?_getD]
    rw [coveredBytes, hhead, List.take_set, coveredBytes]
  have hin : (coveredBytes rec)[k]? = some old := by
    rw [coveredBytes_of_decodeRec hdec, List.getElem?_take_of_lt (by omega), hold]
  have hsum := byteSum_set hin new
  have hdiff : new.toNat ≠ old.toNat := fun h => hne (BitVec.eq_of_toNat_eq h)
  have hnew := new.isLt
  have hold := old.isLt
  rw [verifyChecksum_iff] at hverify
  rw [← Bool.not_eq_true, verifyChecksum_iff, hcovered]
  omega

end Sys2Proof.Proofs
end

section
/-! PROOFS. Framing (R140, R141, R276): what it consumes, the lines within and beyond the limit, and the largest record
a framed line can hold (R148). -/
namespace Sys2Proof.Proofs
open Sys2Proof.Machine

/-! ### What framing consumes (R140, R276) -/

/-- R140: a framed or overlong line is the next bytes of the input, with no LF but its last byte. -/
theorem frameLine_consumes {s : State} {line : List Byte} {pos : Nat}
    (h : frameLine s = (.line line, pos) ∨ frameLine s = (.tooLong line, pos)) :
    line ≠ [] ∧ pos = s.inPos + line.length ∧ line = (inputRest s).take line.length ∧ chLF ∉ line.dropLast ∧
      readsGood s s.inPos pos := by
  obtain ⟨taken, more, hrest, hpos, hgood, hresult⟩ := frameLine_result s
  have hline : line = taken ∧ taken ≠ [] ∧ chLF ∉ taken.dropLast ∧ pos = s.inPos + taken.length := by
    rcases h with h | h
    all_goals
      rw [h] at hpos hresult
      cases hresult
      exact ⟨rfl, ‹_›, ‹_›, hpos⟩
  obtain ⟨rfl, hne, hlf, rfl⟩ := hline
  exact ⟨hne, rfl, by rw [hrest, List.take_left], hlf, hgood⟩

/-- R276: framing has not returned where a read is not answered, or where an endless input holds no LF: then, under
FAULT, it has read the whole stretch ahead. -/
theorem frameLine_waiting_cause {s : State} {pos : Nat} (h : frameLine s = (.waiting, pos)) :
    readHoldAt s = some pos ∨ s.longLinePolicy = .fault ∧ s.host.input.cycle ≠ [] ∧ chLF ∉ s.host.input.cycle ∧
      pos = s.inPos + (inputRest s).length := by
  obtain ⟨taken, more, hrest, hpos, -, hresult⟩ := frameLine_result s
  rw [h] at hpos hresult
  cases hresult with
  | waiting he hw hlf =>
    rcases hw with hhold | ⟨hendless, htaken⟩
    · exact .inl (hhold.trans (congrArg some hpos.symm))
    · have hcycle : s.host.input.cycle ≠ [] := (passReads_endless s).mp hendless
      cases hpolicy : s.longLinePolicy with
      | split =>
        have hstretch : lineMax ≤ (inputRest s).length := by
          rw [inputRest, List.length_append, length_cycleFrom _ _ _ hcycle]
          omega
        have hframe : frameFrom .split (passReads s) (inputRest s) s.inPos [] = (.waiting, pos) := by
          rw [← hpolicy]
          exact h
        have hhold := frameFrom_split_waiting (passReads s) (inputRest s) s.inPos [] (by simp [lineMax])
          (by simpa using hstretch) (by rw [hframe])
        rw [hframe] at hhold
        exact .inl hhold
      | fault =>
        refine .inr ⟨rfl, hcycle, fun hmem => hlf ?_, htaken ▸ hpos⟩
        rw [← htaken]
        exact List.mem_append_right _ (mem_cycleFrom _ _ _ _ hmem (by omega))

/-- Settles O13: the stretch of the input that framing consumes (`frameLine_result`), read off for each answer. -/
theorem framingConsumesTheLine : Obligations.FramingConsumesTheLine := by
  intro s
  obtain ⟨taken, more, hrest, hpos, hgood, hresult⟩ := frameLine_result s
  have hahead : (inputRest s).take taken.length = taken := by rw [hrest, List.take_left]
  have hlen : taken.length ≤ (inputRest s).length := by rw [hrest, List.length_append]; omega
  refine ⟨fun line pos h => frameLine_consumes h, ?endOfInput, ?readError, ?waiting⟩
  case endOfInput =>
    intro pos h
    rw [h] at hpos hresult
    cases hresult with
    | endOfInput ht hr hl he hh hn =>
      subst ht
      have hcycle : s.host.input.cycle = [] := by simpa [passReads] using hn
      obtain rfl : pos = s.inPos := hpos
      exact ⟨rfl, hr, hcycle, he, hh⟩
  case readError =>
    intro pos h
    rw [h] at hpos hresult
    cases hresult with
    | readError he hlf =>
      obtain rfl : pos = s.inPos + taken.length := hpos
      refine ⟨he, by omega, by omega, ?_⟩
      rwa [Nat.add_sub_cancel_left, hahead]
  case waiting =>
    intro pos h
    have hcause := frameLine_waiting_cause h
    rw [h] at hpos hresult
    cases hresult with
    | waiting he hw hlf =>
      obtain rfl : pos = s.inPos + taken.length := hpos
      refine ⟨by omega, by omega, he, hgood, ?_, ?_⟩
      · rwa [Nat.add_sub_cancel_left, hahead]
      · exact hcause.imp_right fun ⟨hpolicy, hcycle, hnone, _⟩ => ⟨hpolicy, hcycle, hnone⟩

/-! ### The end of a line (R140, R141) -/

/-- A good read of an LF ends the line. -/
theorem frameFrom_lf {policy : LongLinePolicy} {reads : Reads} {pos : Nat} (hgood : reads.good pos (pos + 1))
    (tail line : List Byte) :
    frameFrom policy reads (chLF :: tail) pos line =
      (if overlong policy (line ++ [chLF]) then .tooLong (line ++ [chLF]) else .line (line ++ [chLF]), pos + 1) := by
  have he : reads.errAt ≠ some pos := fun h => by have := hgood pos (.inl h); omega
  have hh : reads.holdAt ≠ some pos := fun h => by have := hgood pos (.inr h); omega
  rw [frameFrom, if_neg he, if_neg hh, if_pos rfl]
  split <;> rfl

/-- A good read of `End` ends the line, or the input. -/
theorem frameFrom_end {policy : LongLinePolicy} {reads : Reads} {pos : Nat} (hgood : reads.good pos (pos + 1))
    (hends : reads.endless = false) (line : List Byte) :
    frameFrom policy reads [] pos line =
      (if line = [] then .endOfInput else if overlongAtEnd policy line then .tooLong line else .line line, pos) := by
  have he : reads.errAt ≠ some pos := fun h => by have := hgood pos (.inl h); omega
  have hh : reads.holdAt ≠ some pos := fun h => by have := hgood pos (.inr h); omega
  rw [frameFrom, if_neg he, if_neg (by simp [hh, hends])]
  split
  · rfl
  · split <;> rfl

/-- Under SPLIT a good read of the 511th byte without LF ends the line. -/
theorem frameFrom_split {reads : Reads} {pos : Nat} (hgood : reads.good pos (pos + 1)) {b : Byte} (hb : b ≠ chLF)
    (tail line : List Byte) (hlen : line.length + 1 = lineMax) :
    frameFrom .split reads (b :: tail) pos line = (.line (line ++ [b]), pos + 1) := by
  have he : reads.errAt ≠ some pos := fun h => by have := hgood pos (.inl h); omega
  have hh : reads.holdAt ≠ some pos := fun h => by have := hgood pos (.inr h); omega
  rw [frameFrom, if_neg he, if_neg hh, if_neg hb, if_pos (by simp [splitHere, hlen])]

/-- R140: the content of a line that ends in LF is its body but for one last CR. -/
theorem contentLen_concat (body : List Byte) :
    contentLen (body ++ [chLF]) = body.length - (if body.getLast? = some chCR then 1 else 0) := by
  simp [contentLen, crBeforeLast]

theorem overlong_iff (policy : LongLinePolicy) (line : List Byte) :
    overlong policy line = true ↔ lineMax < contentLen line ∧ policy = .fault := by
  simp [overlong]

theorem overlongAtEnd_iff (policy : LongLinePolicy) (line : List Byte) :
    overlongAtEnd policy line = true ↔ lineMax < line.length ∧ policy = .fault := by
  simp [overlongAtEnd]

/-! ### Bodies without LF, within the limit or under FAULT (R140, R141) -/

/-- The reads of a stretch that are good are good in each part of it. -/
theorem good_mono {reads : Reads} {lo hi lo' hi' : Nat} (h : reads.good lo hi) (hlo : lo ≤ lo') (hhi : hi' ≤ hi) :
    reads.good lo' hi' := fun p hp => (h p hp).imp (fun hlt => by omega) (fun hle => by omega)

/-- Framing reads on through a body without LF, where no split falls into it, and ends at the LF after it. -/
theorem frameLine_body_lf {s : State} {body tail : List Byte} (hrest : inputRest s = body ++ chLF :: tail)
    (hlf : chLF ∉ body) (hgood : readsGood s s.inPos (s.inPos + body.length + 1))
    (hsplit : s.longLinePolicy = .split → body.length < lineMax) :
    frameLine s =
      (if overlong s.longLinePolicy (body ++ [chLF]) then .tooLong (body ++ [chLF]) else .line (body ++ [chLF]),
        s.inPos + body.length + 1) := by
  have hreads : (passReads s).good s.inPos (s.inPos + body.length + 1) := hgood
  rw [frameLine, hrest, frameFrom_append _ _ body _ _ [] hlf (good_mono hreads (by omega) (by omega))
    (fun hp => .inl (by simpa using hsplit hp)), frameFrom_lf (good_mono hreads (by omega) (by omega))]
  rfl

/-- The same for a body that the end of the input ends. -/
theorem frameLine_body_end {s : State} {body : List Byte} (hcycle : s.host.input.cycle = [])
    (hrest : inputRest s = body) (hlf : chLF ∉ body) (hgood : readsGood s s.inPos (s.inPos + body.length + 1))
    (hsplit : s.longLinePolicy = .split → body.length < lineMax) :
    frameLine s =
      (if body = [] then .endOfInput else if overlongAtEnd s.longLinePolicy body then .tooLong body else .line body,
        s.inPos + body.length) := by
  have hreads : (passReads s).good s.inPos (s.inPos + body.length + 1) := hgood
  have hends : (passReads s).endless = false := by simp [passReads, hcycle]
  have happend := frameFrom_append s.longLinePolicy (passReads s) body [] s.inPos [] hlf
    (good_mono hreads (by omega) (by omega)) (fun hp => .inl (by simpa using hsplit hp))
  rw [List.append_nil, List.nil_append] at happend
  rw [frameLine, hrest, happend, frameFrom_end (good_mono hreads (by omega) (by omega)) hends]

/-- Settles O14: a body of fewer than 511 bytes is not split, and its content is not overlong. -/
theorem linesWithinTheLimit : Obligations.LinesWithinTheLimit := by
  refine ⟨?ended, ?final⟩
  case ended =>
    intro s body tail hrest hlf hlen hgood
    have hshort : ¬ overlong s.longLinePolicy (body ++ [chLF]) = true := by
      rw [overlong_iff, contentLen_concat, lineMax]
      omega
    rw [frameLine_body_lf hrest hlf hgood (fun _ => hlen), if_neg hshort]
  case final =>
    intro s body hcycle hrest hlf hlen hgood
    have hshort : ¬ overlongAtEnd s.longLinePolicy body = true := by
      rw [overlongAtEnd_iff, lineMax]
      omega
    have hframe := frameLine_body_end hcycle hrest hlf hgood (fun _ => hlen)
    constructor
    · intro hne
      rw [hframe, if_neg hne, if_neg hshort]
    · rintro rfl
      exact hframe

/-- Settles O16: under SPLIT framing reads 510 bytes on and ends the line at the next; under FAULT no split falls into
the body, and what decides is the length of its content. -/
theorem longLines : Obligations.LongLines := by
  refine ⟨?split, ?ended, ?final⟩
  case split =>
    intro s body tail hpolicy hrest hlf hlen hgood
    obtain ⟨init, b, rfl⟩ : ∃ init b, body = init ++ [b] :=
      (List.eq_nil_or_concat' body).resolve_left (by rintro rfl; simp at hlen)
    obtain ⟨hinit, hb⟩ : chLF ∉ init ∧ b ≠ chLF := by simpa [eq_comm] using hlf
    have hinitLen : init.length + 1 = 511 := by simpa using hlen
    have hreads : (passReads s).good s.inPos (s.inPos + 511) := hgood
    rw [frameLine, hpolicy, hrest, List.append_assoc, frameFrom_append _ _ init _ _ [] hinit
      (good_mono hreads (by omega) (by omega)) (fun _ => .inl (by simp [lineMax]; omega)),
      List.singleton_append, List.nil_append, frameFrom_split (good_mono hreads (by omega) (by omega)) hb _ _ hinitLen,
      Nat.add_assoc, hinitLen]
  case ended =>
    intro s body tail hpolicy hrest hlf hgood
    rw [frameLine_body_lf hrest hlf hgood (by simp [hpolicy])]
    simp only [overlong_iff, contentLen_concat, hpolicy, and_true, lineMax]
  case final =>
    intro s body hpolicy hcycle hrest hlf hne hgood
    rw [frameLine_body_end hcycle hrest hlf hgood (by simp [hpolicy]), if_neg hne]
    simp only [overlongAtEnd_iff, hpolicy, and_true, lineMax]

/-! ### The largest byteCount of a framed record (R148) -/

/-- R140, R141: a line that framing accepts is within the limit, its LF and one CR before the LF not counted. -/
theorem frameFrom_line_within (policy : LongLinePolicy) (reads : Reads) (rest : List Byte) (pos : Nat)
    (line accepted : List Byte) (hsplit : policy = .split → line.length < lineMax)
    (h : (frameFrom policy reads rest pos line).1 = .line accepted) :
    accepted.length ≤ lineMax ∨ ∃ body, accepted = body ++ [chLF] ∧ contentLen accepted ≤ lineMax := by
  induction rest generalizing pos line with
  | nil =>
    unfold frameFrom at h
    split at h; · cases h
    split at h; · cases h
    split at h; · cases h
    split at h
    · cases h
    next hshort =>
      cases h
      rw [overlongAtEnd_iff, not_and_or, not_lt] at hshort
      refine .inl (hshort.elim id fun hpolicy => ?_)
      cases policy with
      | split => exact (hsplit rfl).le
      | fault => exact absurd rfl hpolicy
  | cons b rest ih =>
    unfold frameFrom at h
    split at h; · cases h
    split at h; · cases h
    split at h
    next hb =>
      subst hb
      split at h
      · cases h
      next hshort =>
        cases h
        refine .inr ⟨line, rfl, ?_⟩
        rw [overlong_iff, not_and_or, not_lt] at hshort
        refine hshort.elim id fun hpolicy => ?_
        cases policy with
        | split => have := hsplit rfl; rw [contentLen_concat]; omega
        | fault => exact absurd rfl hpolicy
    next =>
      split at h
      next hs =>
        cases h
        simp only [splitHere, Bool.and_eq_true, decide_eq_true_eq] at hs
        exact .inl hs.1.le
      next hs =>
        refine ih (pos + 1) (line ++ [b]) (fun hpolicy => ?_) h
        have hline := hsplit hpolicy
        simp only [splitHere, hpolicy, List.length_append, List.length_singleton, beq_self_eq_true, Bool.and_true,
          decide_eq_true_eq] at hs ⊢
        omega

/-- R144: a payload stops before a terminator. -/
theorem length_payload_le (c t : Byte) (before after : List Byte) (ht : isTerminator t = true) :
    (payload (c :: before ++ t :: after)).length ≤ before.length := by
  have hstop : (before ++ t :: after).takeWhile (fun x => !isTerminator x) =
      before.takeWhile (fun x => !isTerminator x) := by
    induction before with
    | nil => simp [ht]
    | cons x before ih => cases hx : isTerminator x <;> simp [hx, ih]
  have hpayload : payload (c :: before ++ t :: after) = before.takeWhile (fun x => !isTerminator x) := hstop
  rw [hpayload]
  exact (List.takeWhile_sublist _).length_le

/-- R144, R140: the payload of a line that ends in LF leaves out the start code, the LF and one CR before it. -/
theorem length_payload_le_contentLen (body : List Byte) :
    (payload (body ++ [chLF])).length ≤ contentLen (body ++ [chLF]) - 1 := by
  rw [contentLen_concat]
  split
  next hcr =>
    obtain ⟨init, rfl⟩ := List.getLast?_eq_some_iff.mp hcr
    cases init with
    | nil => exact length_payload_le chCR chLF [] [] rfl
    | cons c init => simpa using length_payload_le c chCR init [chLF] rfl
  next =>
    cases body with
    | nil => exact Nat.zero_le _
    | cons c body => simpa using length_payload_le c chLF body [] rfl

/-- Settles O17: an accepted line has at most 511 characters of content, the start code among them, so at most 255
pairs, five of which are not data. -/
theorem acceptedByteCount : Obligations.AcceptedByteCount := by
  intro s line pos i hframe hdec
  have hpayload : (payload line).length ≤ 510 := by
    have hwithin := frameFrom_line_within s.longLinePolicy (passReads s) (inputRest s) s.inPos [] line
      (fun _ => by simp [lineMax]) (congrArg Prod.fst hframe)
    rw [lineMax] at hwithin
    rcases hwithin with hlen | ⟨body, rfl, hlen⟩
    · have hne : line ≠ [] := (frameLine_consumes (.inl hframe)).1
      have := length_payload_lt line hne
      omega
    · have := length_payload_le_contentLen body
      omega
  have helig : eligible line = true := by
    by_contra hne
    rw [decodeLine_of_not_eligible hne] at hdec
    cases hdec
  rw [decodeLine_of_eligible helig] at hdec
  have hpairs : (lineRec line).length = (payload line).length / 2 := length_pairs _
  have hlong := (length_of_decodeRec_ok hdec).2
  have hcount := count_of_decodeRec _ _ hdec
  omega

end Sys2Proof.Proofs
end

section
/-! PROOFS. What the block's own step can do (R204 to R207, R213, R245, R272), said once, and what follows from it: the
effects of a scan pass (R209, R210), the ways out of a pass (R206), what a decode pass keeps (R39) and the precision of
errors (R250). -/
namespace Sys2Proof.Proofs
open Sys2Proof.Machine

/-! ### The outcomes of the block's own step -/

/-- The state in which a framed line is processed: `in_pos` already moved past the bytes that framing consumed. -/
def afterRead (u : State) : State := atPos u (frameLine u).2

/-- R206: what ends a pass normally, `End` or an EOF record. -/
def EndsPass (f : Frame) : Prop :=
  f = .endOfInput ∨ ∃ line r, f = .line line ∧ decodeLine line = .ok (.eof r)

/-- R206: what lets a pass go on where no record raises: neither an end of the pass nor a failed read. -/
def GoesOn (f : Frame) : Prop := ¬ EndsPass f ∧ f ≠ .readError

/-- What a line that leaves the pass under way does to the state `v` in which it is processed. -/
inductive LineEffect (v t : State) : Prop where
  | nothing (ht : t = v)
  | scanned (r : Record) (hscan : v.phase = .scan) (ht : t = scanData r v)
  | placed (r : Record) (off : Nat) (hscan : v.phase ≠ .scan) (hoff : dataOffset r v = some off)
      (ht : t = { v with image := Memory.writeBytes v.image off r.data })
  | segBias (d0 d1 : Byte) (ht : t = { v with segBias := segmentBiasOf d0 d1 })
  | linBias (d0 d1 : Byte) (ht : t = { v with linBias := linearBiasOf d0 d1 })

/-- R209, R240, R247: the errors the block raises in a phase. -/
structure RaisedIn (p : Phase) (e : ErrKind) : Prop where
  inCall : p = .scan ∨ p = .alloc ∨ p = .decode
  notEncoder : e ≠ .none ∧ e ≠ .addressTooLarge ∧ e ≠ .entryAddressTooLarge
  inScan : p = .scan → e = .ioError ∨ e = .unknownRecordType

/-- The outcomes of the block's own step in the state `u`. -/
inductive BlockResult (u t : State) : Prop where
  | stays (h : atRest u ∨ u.phase = .alloc ∧ u.host.allocAnswer = .silent) (ht : t = u)
  | raised (e : ErrKind) (pos : Nat) (he : RaisedIn u.phase e) (ht : t = raise e (atPos u pos))
  | granted (n : Nat) (halloc : u.phase = .alloc) (hn : allocSize u = some n) (ht : t = startDecodePass n u)
  | passEnd (hpass : inPass u) (hf : EndsPass (frameLine u).1) (ht : t = endPass (afterRead u))
  | goesOn (hpass : inPass u) (hf : GoesOn (frameLine u).1) (heff : LineEffect (afterRead u) t) :
      BlockResult u t

theorem inPass_call {s : State} (h : inPass s) : s.phase = .scan ∨ s.phase = .alloc ∨ s.phase = .decode :=
  h.imp_right .inr

/-- R141, R147, R179: a malformed line raises BadHexData in the decode pass, and has no effect in the scan pass. -/
theorem blockResult_malformed {u : State} (hpass : inPass u) (hgo : GoesOn (frameLine u).1) :
    BlockResult u (malformed (afterRead u)) := by
  rcases malformed_cases (afterRead u) with ⟨hdecode, ht⟩ | ⟨-, ht⟩
  · have hdecode' : u.phase = .decode := hdecode
    exact .raised .badHexData _ ⟨inPass_call hpass, by decide, by simp [hdecode']⟩ ht
  · exact .goesOn hpass hgo (.nothing ht)

/-- R180: what a dispatched record does to the pass. -/
theorem blockResult_exec {u t : State} {line : List Byte} {i : Instr} (hpass : inPass u)
    (hf : (frameLine u).1 = .line line) (hi : decodeLine line = .ok i) (hr : ExecResult (afterRead u) t i) :
    BlockResult u t := by
  have hcall := inPass_call hpass
  have hgo : (∀ r, i ≠ .eof r) → GoesOn (frameLine u).1 := fun h => by
    simpa [GoesOn, EndsPass, hf, hi] using h
  cases hr with
  | scanData r hscan ht => exact .goesOn hpass (hgo nofun) (.scanned r hscan ht)
  | placed r off hscan hoff ht => exact .goesOn hpass (hgo nofun) (.placed r off hscan hoff ht)
  | outside r hscan hoff ht => exact .raised .bufferBound _ ⟨hcall, by decide, fun h => absurd h hscan⟩ ht
  | endPass r ht => exact .passEnd hpass (.inr ⟨line, r, hf, hi⟩) ht
  | segBias r d0 d1 more hd ht => exact .goesOn hpass (hgo nofun) (.segBias d0 d1 ht)
  | linBias r d0 d1 more hd ht => exact .goesOn hpass (hgo nofun) (.linBias d0 d1 ht)
  | shortEsa r hd ht | shortEla r hd ht => exact ht ▸ blockResult_malformed hpass (hgo nofun)
  | startSeg r ht | startLin r ht => exact .goesOn hpass (hgo nofun) (.nothing ht)
  | reserved i hu ht => exact .raised .unknownRecordType _ ⟨hcall, by decide, fun _ => .inr rfl⟩ ht

/-- R154: what a line step does to the pass. -/
theorem blockResult_line {u t : State} (hpass : inPass u)
    (hr : LineResult (afterRead u) t (frameLine u).1) : BlockResult u t := by
  have hcall := inPass_call hpass
  generalize hf : (frameLine u).1 = f at hr
  cases hr with
  | readError ht => exact .raised .ioError _ ⟨hcall, by decide, fun _ => .inl rfl⟩ ht
  | endOfInput ht => exact .passEnd hpass (.inl hf) ht
  | tooLong line ht => exact ht ▸ blockResult_malformed hpass (by simp [GoesOn, EndsPass, hf])
  | waiting ht => exact .goesOn hpass (by simp [GoesOn, EndsPass, hf]) (.nothing ht)
  | skipped line he ht => exact .goesOn hpass (by simp [GoesOn, EndsPass, hf, he]) (.nothing ht)
  | tooShort line he ht => exact ht ▸ blockResult_malformed hpass (by simp [GoesOn, EndsPass, hf, he])
  | badChecksum line i hi hc ht =>
    have hdecode : u.phase = .decode := ((checksumFails_iff _ _).mp hc).1
    exact .raised .badChecksum _ ⟨hcall, by decide, by simp [hdecode]⟩ ht
  | ran line i hi hc hx hr => exact blockResult_exec hpass hf hi hr

/-- R213: what an allocation step does. -/
theorem blockResult_alloc {u : State} (halloc : u.phase = .alloc) : BlockResult u (allocStep u) := by
  have hcall : u.phase = .scan ∨ u.phase = .alloc ∨ u.phase = .decode := .inr (.inl halloc)
  rcases allocStep_cases u with ⟨-, ht⟩ | ⟨n, hn, ⟨-, ht⟩ | ⟨-, ht⟩ | ⟨hsilent, ht⟩⟩
  · exact .raised .bufferBound u.inPos ⟨hcall, by decide, by simp [halloc]⟩ ht
  · exact .granted n halloc hn ht
  · exact .raised .ioError u.inPos ⟨hcall, by decide, fun _ => .inl rfl⟩ ht
  · exact .stays (.inr ⟨halloc, hsilent⟩) ht

/-- Everything the block's own step can be. -/
theorem blockStep_result {u t : State} (h : blockStep u = .next t) : BlockResult u t := by
  rcases phase_cases u with hpass | halloc | hrest
  · rw [blockStep_of_inPass u hpass] at h
    exact blockResult_line hpass (lineStep_next u t h)
  · rw [blockStep_of_alloc u halloc] at h
    cases h
    exact blockResult_alloc halloc
  · rw [blockStep_of_atRest u hrest] at h
    cases h
    exact .stays (.inl hrest) rfl

/-- The step on the block's turn. -/
theorem blockResult_of_turn {s u t : State} (hturn : blockTurn s = some u) (hstep : step s = .next t) :
    BlockResult u t :=
  blockStep_result ((step_of_blockTurn s u hturn).symm.trans hstep)

/-! ### What every outcome keeps -/

theorem LineEffect.phase_eq {v t : State} (h : LineEffect v t) : t.phase = v.phase := by
  cases h <;> subst t <;> rfl

theorem LineEffect.inPos_eq {v t : State} (h : LineEffect v t) : t.inPos = v.inPos := by
  cases h <;> subst t <;> rfl

theorem LineEffect.host_eq {v t : State} (h : LineEffect v t) : t.host = v.host := by
  cases h <;> subst t <;> rfl

theorem LineEffect.longLinePolicy_eq {v t : State} (h : LineEffect v t) : t.longLinePolicy = v.longLinePolicy := by
  cases h <;> subst t <;> rfl

theorem LineEffect.call_eq {v t : State} (h : LineEffect v t) : t.call = v.call := by
  cases h <;> subst t <;> rfl

/-- R207: `end pass` writes `phase` and, in the decode pass, `base_addr`. -/
theorem endPass_eq (s : State) :
    endPass s = { s with phase := (endPass s).phase, baseAddr := (endPass s).baseAddr } := by
  rcases endPass_cases s with ⟨-, -, he⟩ | ⟨-, -, he⟩ | ⟨-, he⟩ | ⟨-, -, he⟩
  · exact he ▸ rfl
  · exact he ▸ rfl
  · exact he ▸ rfl
  · rw [he]

/-- R207: the phase that `end pass` leads to. -/
theorem endPass_phase (s : State) :
    (endPass s).phase = .done ∨ (endPass s).phase = .alloc ∨ (endPass s).phase = s.phase := by
  rcases endPass_cases s with ⟨-, -, he⟩ | ⟨-, -, he⟩ | ⟨-, he⟩ | ⟨-, -, he⟩ <;> rw [he] <;> simp

/-- The block's own step leaves the host's side alone. -/
theorem BlockResult.host_eq {u t : State} (h : BlockResult u t) : t.host = u.host := by
  cases h with
  | stays _ ht | raised _ _ _ ht | granted _ _ _ ht => exact ht ▸ rfl
  | passEnd _ _ ht => exact ht ▸ endPass_eq (afterRead u) ▸ rfl
  | goesOn _ _ heff => exact heff.host_eq

/-- R141: nothing writes the open parameter. -/
theorem BlockResult.longLinePolicy_eq {u t : State} (h : BlockResult u t) : t.longLinePolicy = u.longLinePolicy := by
  cases h with
  | stays _ ht | raised _ _ _ ht | granted _ _ _ ht => exact ht ▸ rfl
  | passEnd _ _ ht => exact ht ▸ endPass_eq (afterRead u) ▸ rfl
  | goesOn _ _ heff => exact heff.longLinePolicy_eq

/-- R22: the block's own step stays in its call. -/
theorem BlockResult.call_eq {u t : State} (h : BlockResult u t) : t.call = u.call := by
  cases h with
  | stays _ ht | raised _ _ _ ht | granted _ _ _ ht => exact ht ▸ rfl
  | passEnd _ _ ht => exact ht ▸ endPass_eq (afterRead u) ▸ rfl
  | goesOn _ _ heff => exact heff.call_eq

/-! ### The obligations -/

/-- Settles O52: `raise` takes one of two errors in the scan pass, `end pass` writes `phase` there, and no line stores a
byte. -/
theorem scanPassEffects : Obligations.ScanPassEffects := by
  intro s u t hturn hscan hstep
  cases blockResult_of_turn hturn hstep with
  | stays hrest ht => simp [atRest, hscan] at hrest
  | raised e pos he ht => exact ht ▸ ⟨rfl, fun _ => he.inScan hscan⟩
  | granted n halloc hn ht => simp [hscan] at halloc
  | passEnd hpass hf ht =>
    have hscan' : (afterRead u).phase = .scan := hscan
    rcases endPass_cases (afterRead u) with ⟨-, -, he⟩ | ⟨-, -, he⟩ | ⟨hdecode, -⟩ | ⟨-, -, he⟩
    · exact ht.trans he ▸ ⟨rfl, nofun⟩
    · exact ht.trans he ▸ ⟨rfl, nofun⟩
    · simp [hscan'] at hdecode
    · exact ht.trans he ▸ ⟨rfl, by simp [hscan']⟩
  | goesOn hpass hgo heff =>
    have hphase : t.phase = .scan := heff.phase_eq.trans hscan
    refine ⟨?_, by simp [hphase]⟩
    cases heff with
    | nothing ht | scanned r _ ht | segBias d0 d1 ht | linBias d0 d1 ht => exact ht ▸ rfl
    | placed r off hne hoff ht => exact absurd hscan hne

/-- Settles O53: the phase changes only by a raise or by `end pass`, which `End` and EOF records run. -/
theorem waysOutOfAPass : Obligations.WaysOutOfAPass := by
  intro s u t hturn hpass hstep hne
  cases blockResult_of_turn hturn hstep with
  | stays hrest ht => exact absurd (congrArg State.phase ht) hne
  | raised e pos he ht => exact .inl (congrArg State.phase ht)
  | granted n halloc hn ht => rcases hpass with h | h <;> simp [h] at halloc
  | passEnd hpass hf ht =>
    rcases endPass_phase (afterRead u) with he | he | he <;> rw [← ht] at he
    · exact .inr ⟨.inl he, hf⟩
    · exact .inr ⟨.inr he, hf⟩
    · exact absurd he hne
  | goesOn hpass hgo heff => exact absurd heff.phase_eq hne

/-- Settles O54: the registers that a raise, `decodeEnd` and a line of the decode pass leave as they are. -/
theorem decodePassKeepsScanResult : Obligations.DecodePassKeepsScanResult := by
  intro s u t hturn hdecode hstep
  cases blockResult_of_turn hturn hstep with
  | stays hrest ht => simp [atRest, hdecode] at hrest
  | raised e pos he ht => exact ht ▸ ⟨rfl, rfl, rfl, rfl, rfl, rfl⟩
  | granted n halloc hn ht => simp [hdecode] at halloc
  | passEnd hpass hf ht => exact ht ▸ endPass_eq (afterRead u) ▸ ⟨rfl, rfl, rfl, rfl, rfl, rfl⟩
  | goesOn hpass hgo heff =>
    cases heff with
    | nothing ht | placed r off _ _ ht | segBias d0 d1 ht | linBias d0 d1 ht =>
      exact ht ▸ ⟨rfl, rfl, rfl, rfl, rfl, rfl⟩
    | scanned r hscan ht =>
      have hscan' : u.phase = .scan := hscan
      simp [hdecode] at hscan'

/-- Settles O55: only a raise leads to ERROR. -/
theorem errorsArePrecise : Obligations.ErrorsArePrecise := by
  intro s u t hturn hu hstep herror
  cases blockResult_of_turn hturn hstep with
  | stays hrest ht => exact absurd (ht ▸ herror) hu
  | raised e pos he ht => exact ht ▸ ⟨he.notEncoder.1, rfl⟩
  | granted n halloc hn ht => simp [ht] at herror
  | passEnd hpass hf ht =>
    rw [ht] at herror
    rcases endPass_phase (afterRead u) with he | he | he <;> rw [herror] at he
    · cases he
    · cases he
    · exact absurd he.symm hu
  | goesOn hpass hgo heff => exact absurd (heff.phase_eq.symm.trans herror) hu

/-- R41, R202, R270: a command leaves no image byte, or the image as it is. -/
theorem command_image (p : CommandPort) (s : State) :
    (command p s).image = [] ∨ (command p s).image = s.image := by
  cases hcmd : p.cmd <;> simp [command, hcmd, State.reset]

/-- Settles O51: a byte is stored by a placed Data record, which the decode pass alone runs; the granted buffer and the
commands drop the image. -/
theorem imageWrittenOnlyInDecode : Obligations.ImageWrittenOnlyInDecode := by
  intro s t hstep hne
  rcases step_cases s with ⟨u, hturn, -⟩ | ⟨p, more, -, -, hissue⟩ | ⟨input, answer, more, -, -, hinput⟩
  · have hu : u.phase = s.phase ∧ u.image = s.image := by
      rw [host_only_of_blockTurn hturn]
      exact ⟨rfl, rfl⟩
    rw [← hu.1]
    rw [← hu.2] at hne
    cases blockResult_of_turn hturn hstep with
    | stays _ ht | raised _ _ _ ht => exact absurd (ht ▸ rfl) hne
    | granted n _ _ ht => exact .inr (ht ▸ rfl)
    | passEnd _ _ ht => exact absurd (ht ▸ endPass_eq (afterRead u) ▸ rfl) hne
    | goesOn hpass _ heff =>
      cases heff with
      | nothing ht | scanned _ _ ht | segBias _ _ ht | linBias _ _ ht => exact absurd (ht ▸ rfl) hne
      | placed r off hscan hoff ht => exact .inl (hpass.resolve_left hscan)
  · rw [hissue] at hstep
    cases hstep
    exact .inr ((command_image p (dropMove s)).resolve_right hne)
  · rw [hinput] at hstep
    cases hstep
    exact absurd rfl hne

end Sys2Proof.Proofs
end

section
/-! PROOFS. The invariant of the block (R21 to R34, R63, R64, R212): each operation keeps a sound state sound. -/
namespace Sys2Proof.Proofs
open Sys2Proof.Machine

/-! ### The shapes of the registers (R25, R26, R30) -/

/-- R25, R97: an ESA operand is a 16-bit value shifted left by 4. -/
theorem segmentBiasOf_shape (d0 d1 : Byte) :
    (segmentBiasOf d0 d1).toNat % 16 = 0 ∧ (segmentBiasOf d0 d1).toNat < 2 ^ 20 := by
  have h0 := d0.isLt
  have h1 := d1.isLt
  rw [segmentBiasOf_eq, BitVec.toNat_ofNat]
  omega

/-- R26, R98: an ELA operand is a 16-bit value shifted left by 16. -/
theorem linearBiasOf_shape (d0 d1 : Byte) : (linearBiasOf d0 d1).toNat % 2 ^ 16 = 0 := by
  rw [linearBiasOf_eq, BitVec.toNat_ofNat]
  omega

/-- R25, R26, R30: the shapes of a neutral state. -/
theorem biasShapes_of_zero {s : State} (hseg : s.segBias = 0#32) (hlin : s.linBias = 0#32)
    (hentry : s.entryAddr = 0#32) : BiasShapes s := by
  simp [BiasShapes, hseg, hlin, hentry]

/-- R63: a state without a buffer holds no image byte. -/
theorem imageSound_of_empty {s : State} (himage : s.image = []) (hsize : s.bufSize ≤ 2 ^ 32)
    (hnone : s.bufGranted = false → s.bufSize = 0) : ImageSound s := by
  rw [ImageSound, himage]
  exact ⟨List.Pairwise.nil, nofun, hsize, hnone⟩

/-! ### What a state's soundness does not depend on -/

/-- The input cursor, the biases, the image and the host's side take no part in the bookkeeping of a call. -/
theorem callSound_congr {s t : State} (h : CallSound s)
    (ht : t = { s with inPos := t.inPos, segBias := t.segBias, linBias := t.linBias, image := t.image,
                       host := t.host }) : CallSound t := by
  rw [ht]
  exact { errInError := h.errInError, errRaised := h.errRaised, callInIdle := h.callInIdle
          decodePhases := h.decodePhases, scanIgnoreCs := h.scanIgnoreCs, baseAddr := h.baseAddr
          grantedIn := h.grantedIn, grantedFor := h.grantedFor, grantedSize := h.grantedSize }

/-- Soundness is about the registers and the image: the input cursor and the host's side may be any. -/
theorem inv_congr {s t : State} (h : Inv s) (ht : t = { s with inPos := t.inPos, host := t.host }) : Inv t := by
  refine ⟨?biases, ?image, callSound_congr h.call ?call⟩
  case biases => exact ht ▸ h.biases
  case image => exact ht ▸ h.image
  case call => exact ht ▸ rfl

/-! ### The start of a call and RESET (R47, R200, R201, R270) -/

theorem inv_reset : Inv State.reset :=
  ⟨biasShapes_of_zero rfl rfl rfl, imageSound_of_empty rfl (Nat.zero_le _) fun _ => rfl, by constructor <;> decide⟩

/-- RESET gives the sound state of R47, with the open parameter and the host's side as they were. -/
theorem inv_resetBlock (s : State) : Inv (resetBlock s) where
  biases := inv_reset.biases
  image := inv_reset.image
  call :=
    { errInError := inv_reset.call.errInError, errRaised := inv_reset.call.errRaised
      callInIdle := inv_reset.call.callInIdle, decodePhases := inv_reset.call.decodePhases
      scanIgnoreCs := inv_reset.call.scanIgnoreCs, baseAddr := inv_reset.call.baseAddr
      grantedIn := inv_reset.call.grantedIn, grantedFor := inv_reset.call.grantedFor
      grantedSize := inv_reset.call.grantedSize }

theorem inv_acceptScan (v : Variant) (s : State) : Inv (acceptScan v s) where
  biases := biasShapes_of_zero rfl rfl rfl
  image := imageSound_of_empty rfl (Nat.zero_le _) fun _ => rfl
  call := by constructor <;> simp

theorem inv_acceptDecode (v : Variant) (ic : Bool) (s : State) : Inv (acceptDecode v ic s) where
  biases := biasShapes_of_zero rfl rfl rfl
  image := imageSound_of_empty rfl (Nat.zero_le _) fun _ => rfl
  call := by constructor <;> simp

/-- R41: a command gives a sound state, NOP from a sound state only. -/
theorem inv_command (p : CommandPort) {s : State} (h : Inv s) : Inv (command p s) := by
  cases hcmd : p.cmd <;> rw [command, hcmd]
  case nop => exact h
  case reset => exact inv_resetBlock s
  case scan => exact inv_acceptScan _ s
  case decode => exact inv_acceptDecode _ _ s

/-! ### The block's own step -/

/-- R31: outside DONE `base_addr` is 0. -/
theorem baseAddr_of_not_done {s : State} (h : CallSound s) (hphase : s.phase ≠ .done) :
    s.baseAddr = 0#32 := h.baseAddr.trans (if_neg fun hc => hphase hc.1)

/-- R63: in the scan pass no buffer is granted yet. -/
theorem not_granted_of_scan {s : State} (h : CallSound s) (hscan : s.phase = .scan) : ¬ s.bufGranted = true := by
  intro hg
  obtain ⟨-, hne, -⟩ := h.grantedIn hg
  exact hne hscan

/-- R245: an error raised in a call. -/
theorem inv_raise {s : State} {e : ErrKind} (h : Inv s) (he : RaisedIn s.phase e) : Inv (raise e s) where
  biases := h.biases
  image := h.image
  call :=
    have hidle : s.phase ≠ .idle := by rcases he.inCall with hp | hp | hp <;> simp [hp]
    have hdone : s.phase ≠ .done := by rcases he.inCall with hp | hp | hp <;> simp [hp]
    { errInError := by simp [he.notEncoder.1]
      errRaised := he.notEncoder.2
      callInIdle := by simp [h.call.callInIdle, hidle]
      decodePhases := by simp
      scanIgnoreCs := h.call.scanIgnoreCs
      baseAddr := by simp [baseAddr_of_not_done h.call hdone]
      grantedIn := fun hg => ⟨(h.call.grantedIn hg).1, by simp⟩
      grantedFor := by simp
      grantedSize := h.call.grantedSize }

/-- R213, R215: the buffer of the size that R212 requests. -/
theorem inv_startDecodePass {s : State} {n : Nat} (h : Inv s) (halloc : s.phase = .alloc)
    (hn : allocSize s = some n) : Inv (startDecodePass n s) where
  biases :=
    have ⟨_, _, hentry⟩ := h.biases
    biasShapes_of_zero rfl rfl hentry
  image := imageSound_of_empty rfl (allocSize_le s n hn) nofun
  call :=
    have hcall : s.call = .decodeCall := h.call.decodePhases (.inl halloc)
    { errInError := by simp [h.call.errInError, halloc]
      errRaised := h.call.errRaised
      callInIdle := by simp [hcall]
      decodePhases := fun _ => hcall
      scanIgnoreCs := h.call.scanIgnoreCs
      baseAddr := by simp [baseAddr_of_not_done h.call (by simp [halloc])]
      grantedIn := fun _ => ⟨hcall, by simp⟩
      grantedFor := fun _ => rfl
      grantedSize := fun _ => hn }

/-- R207: the end of the scan pass, where no buffer is granted yet. -/
theorem inv_scanEnd {s : State} {p : Phase} (h : Inv s) (hscan : s.phase = .scan)
    (hp : p = .done ∧ s.call = .scanCall ∨ p = .alloc ∧ s.call = .decodeCall) : Inv { s with phase := p } where
  biases := h.biases
  image := h.image
  call :=
    have hnone := not_granted_of_scan h.call hscan
    have herr : s.err = .none := h.call.errInError.mpr (by simp [hscan])
    have hbase : s.baseAddr = 0#32 := baseAddr_of_not_done h.call (by simp [hscan])
    { errInError := by rcases hp with ⟨rfl, -⟩ | ⟨rfl, -⟩ <;> simp [herr]
      errRaised := h.call.errRaised
      callInIdle := by rcases hp with ⟨rfl, hc⟩ | ⟨rfl, hc⟩ <;> simp [hc]
      decodePhases := by rcases hp with ⟨rfl, hc⟩ | ⟨rfl, hc⟩ <;> simp [hc]
      scanIgnoreCs := h.call.scanIgnoreCs
      baseAddr := by rcases hp with ⟨rfl, hc⟩ | ⟨rfl, hc⟩ <;> simp [hc, hbase]
      grantedIn := fun hg => absurd hg hnone
      grantedFor := by rcases hp with ⟨rfl, hc⟩ | ⟨rfl, hc⟩ <;> simp [hc]
      grantedSize := h.call.grantedSize }

/-- R218: the end of the decode pass. -/
theorem inv_decodeEnd {s : State} (h : Inv s) (hdecode : s.phase = .decode) : Inv (decodeEnd s) where
  biases := h.biases
  image := h.image
  call :=
    have hcall : s.call = .decodeCall := h.call.decodePhases (.inr hdecode)
    { errInError := by simp [h.call.errInError, hdecode]
      errRaised := h.call.errRaised
      callInIdle := by simp [hcall]
      decodePhases := by simp
      scanIgnoreCs := h.call.scanIgnoreCs
      baseAddr := by simp [hcall]
      grantedIn := fun _ => ⟨hcall, by simp⟩
      grantedFor := fun _ => h.call.grantedFor (.inl hdecode)
      grantedSize := h.call.grantedSize }

theorem inv_endPass {s : State} (h : Inv s) : Inv (endPass s) := by
  rcases endPass_cases s with ⟨hscan, hcall, he⟩ | ⟨hscan, hcall, he⟩ | ⟨hdecode, he⟩ | ⟨-, -, he⟩ <;> rw [he]
  · exact inv_scanEnd h hscan (.inl ⟨rfl, hcall⟩)
  · exact inv_scanEnd h hscan (.inr ⟨rfl, hcall⟩)
  · exact inv_decodeEnd h hdecode
  · exact h

/-- R171: the scan pass writes the scan result, which nothing in a scan pass is bound to. -/
theorem inv_scanData {s : State} (r : Record) (h : Inv s) (hscan : s.phase = .scan) : Inv (scanData r s) where
  biases := h.biases
  image := h.image
  call :=
    have hnone := not_granted_of_scan h.call hscan
    { errInError := h.call.errInError
      errRaised := h.call.errRaised
      callInIdle := h.call.callInIdle
      decodePhases := h.call.decodePhases
      scanIgnoreCs := h.call.scanIgnoreCs
      baseAddr := by simp [hscan, baseAddr_of_not_done h.call (by simp [hscan])]
      grantedIn := h.call.grantedIn
      grantedFor := by simp [hscan]
      grantedSize := fun hg => absurd hg hnone }

/-- R64, R172: the bytes of a placed record stay in canonical form and lie inside the buffer. -/
theorem imageSound_placed {s : State} {r : Record} {off : Nat} (h : ImageSound s) (hoff : dataOffset r s = some off) :
    ImageSound { s with image := Memory.writeBytes s.image off r.data } := by
  obtain ⟨hwf, hin, hsize, hnone⟩ := h
  have hfit : off + r.data.length ≤ s.bufSize := ((dataOffset_eq_some r s off).mp hoff).2.2
  refine ⟨memory_wf_writeBytes _ _ _ hwf, fun c hc => ?_, hsize, hnone⟩
  rcases memory_mem_writeBytes _ _ _ _ hc with ⟨-, hlt⟩ | hmem
  · exact hlt.trans_le hfit
  · exact hin c hmem

theorem inv_lineEffect {v t : State} (h : Inv v) (heff : LineEffect v t) : Inv t := by
  obtain ⟨hseg, hlin, hentry⟩ := h.biases
  cases heff with
  | nothing ht => exact ht ▸ h
  | scanned r hscan ht => exact ht ▸ inv_scanData r h hscan
  | placed r off hscan hoff ht =>
    subst ht
    exact ⟨h.biases, imageSound_placed h.image hoff, callSound_congr h.call rfl⟩
  | segBias d0 d1 ht =>
    subst ht
    exact ⟨⟨segmentBiasOf_shape d0 d1, hlin, hentry⟩, h.image, callSound_congr h.call rfl⟩
  | linBias d0 d1 ht =>
    subst ht
    exact ⟨⟨hseg, linearBiasOf_shape d0 d1, hentry⟩, h.image, callSound_congr h.call rfl⟩

theorem inv_blockResult {u t : State} (h : Inv u) (hres : BlockResult u t) : Inv t := by
  have hat : ∀ pos, Inv (atPos u pos) := fun pos => inv_congr h rfl
  cases hres with
  | stays _ ht => exact ht ▸ h
  | raised e pos he ht => exact ht ▸ inv_raise (hat pos) he
  | granted n halloc hn ht => exact ht ▸ inv_startDecodePass h halloc hn
  | passEnd _ _ ht => exact ht ▸ inv_endPass (hat _)
  | goesOn _ _ heff => exact inv_lineEffect (hat _) heff

/-- Every step keeps a sound state sound. -/
theorem inv_step {s t : State} (h : Inv s) (hstep : step s = .next t) : Inv t := by
  have hdrop : Inv (dropMove s) := inv_congr h rfl
  rcases step_cases s with ⟨u, hturn, -⟩ | ⟨p, more, -, -, hissue⟩ | ⟨input, answer, more, -, -, hinput⟩
  · have hu : Inv u := by rcases blockTurn_eq s u hturn with rfl | rfl <;> assumption
    exact inv_blockResult hu (blockResult_of_turn hturn hstep)
  · rw [hissue] at hstep
    cases hstep
    exact inv_command p hdrop
  · rw [hinput] at hstep
    cases hstep
    exact inv_congr hdrop rfl

/-- Settles O49: the state after reset is the sound state of R47, and the three things a step can be keep soundness. -/
theorem stepKeepsInv : Obligations.StepKeepsInv := ⟨inv_reset, fun _ _ => inv_step⟩

end Sys2Proof.Proofs
end

section
/-! PROOFS. The variant has no effect (R9, R24): every operation commutes with setting it. -/
namespace Sys2Proof.Proofs
open Sys2Proof.Machine

/-- The state with another variant latched (R24). -/
def withVariant (v : Variant) (s : State) : State := { s with variant := v }

/-- An outcome with its next state, if it is one, sent through `f`. -/
def mapNext (f : State → State) : Host.Outcome State Fault Refusal → Host.Outcome State Fault Refusal
  | .next t => .next (f t)
  | .fault r => .fault r
  | .refused r => .refused r

/-! ### The operations on the state -/

theorem malformed_withVariant (v : Variant) (s : State) :
    malformed (withVariant v s) = withVariant v (malformed s) := by
  rcases malformed_cases s with ⟨hdecode, he⟩ | ⟨hdecode, he⟩ <;> rw [he]
  · exact malformed_of_decode _ hdecode
  · exact malformed_of_not_decode _ hdecode

theorem endPass_withVariant (v : Variant) (s : State) : endPass (withVariant v s) = withVariant v (endPass s) := by
  cases hphase : s.phase <;> cases hcall : s.call <;> simp [endPass, withVariant, hphase, hcall, decodeEnd]

theorem placeData_withVariant (v : Variant) (r : Record) (s : State) :
    placeData r (withVariant v s) = withVariant v (placeData r s) := by
  have hoff : dataOffset r (withVariant v s) = dataOffset r s := rfl
  unfold placeData
  rw [hoff]
  split <;> rfl

theorem allocStep_withVariant (v : Variant) (s : State) :
    allocStep (withVariant v s) = withVariant v (allocStep s) := by
  have hsize : allocSize (withVariant v s) = allocSize s := rfl
  have hanswer : (withVariant v s).host = s.host := rfl
  unfold allocStep
  rw [hsize, hanswer]
  split
  · rfl
  · split <;> rfl

/-- R41: after a command, the variant is the old one or the one the command latches. -/
theorem command_withVariant (p : CommandPort) (v : Variant) (s : State) :
    ∃ w, command p (withVariant v s) = withVariant w (command p s) := by
  cases hcmd : p.cmd <;> simp only [command, hcmd]
  case nop => exact ⟨v, rfl⟩
  case reset => exact ⟨State.reset.variant, rfl⟩
  case scan => exact ⟨p.variant, rfl⟩
  case decode => exact ⟨p.variant, rfl⟩

/-! ### The block's own step -/

theorem exec_withVariant (v : Variant) (i : Instr) (s : State) :
    exec i (withVariant v s) = mapNext (withVariant v) (exec i s) := by
  cases i with
  | data r =>
    by_cases hscan : s.phase = .scan
    · rw [exec_data_of_scan hscan]
      exact exec_data_of_scan (s := withVariant v s) hscan r
    · have hrun : exec (.data r) s = .next (placeData r s) := if_neg hscan
      have hrun' : exec (.data r) (withVariant v s) = .next (placeData r (withVariant v s)) := if_neg hscan
      rw [hrun, hrun', placeData_withVariant, mapNext]
  | eof r => exact congrArg _ (endPass_withVariant v s)
  | esa r =>
    simp only [exec, execEsa]
    split
    · rfl
    · rw [malformed_withVariant, mapNext]
  | ela r =>
    simp only [exec, execEla]
    split
    · rfl
    · rw [malformed_withVariant, mapNext]
  | sa r | sla r | unknown06_07 ty r | unknown08_0F ty r | unknown10_1F ty r | unknown20_3F ty r
  | unknown40_7F ty r | unknown80_FF ty r => rfl

theorem processLine_withVariant (v : Variant) (line : List Byte) (s : State) :
    processLine line (withVariant v s) = mapNext (withVariant v) (processLine line s) := by
  cases hdec : decodeLine line with
  | error e =>
    cases e with
    | notEligible => rw [processLine_of_notEligible hdec, processLine_of_notEligible hdec, mapNext]
    | tooShort =>
      rw [processLine_of_tooShort hdec, processLine_of_tooShort hdec, malformed_withVariant, mapNext]
  | ok i =>
    have hsame : checksumFails (lineRec line) (withVariant v s) = checksumFails (lineRec line) s := rfl
    rw [processLine_of_ok hdec, processLine_of_ok hdec, hsame]
    split
    · rfl
    · exact exec_withVariant v i s

theorem afterFrame_withVariant (v : Variant) (f : Frame) (s : State) :
    afterFrame f (withVariant v s) = mapNext (withVariant v) (afterFrame f s) := by
  cases f with
  | readError | waiting => rfl
  | endOfInput => exact congrArg _ (endPass_withVariant v s)
  | tooLong line => exact congrArg _ (malformed_withVariant v s)
  | line line => exact processLine_withVariant v line s

/-- Framing does not look at the variant, so the line is framed and processed alike. -/
theorem lineStep_withVariant (v : Variant) (s : State) :
    lineStep (withVariant v s) = mapNext (withVariant v) (lineStep s) :=
  afterFrame_withVariant v (frameLine s).1 (afterRead s)

theorem blockStep_withVariant (v : Variant) (s : State) :
    blockStep (withVariant v s) = mapNext (withVariant v) (blockStep s) := by
  rcases phase_cases s with hpass | halloc | hrest
  · rw [blockStep_of_inPass s hpass]
    exact (blockStep_of_inPass (withVariant v s) hpass).trans (lineStep_withVariant v s)
  · rw [blockStep_of_alloc s halloc]
    exact (blockStep_of_alloc (withVariant v s) halloc).trans (congrArg _ (allocStep_withVariant v s))
  · rw [blockStep_of_atRest s hrest]
    exact blockStep_of_atRest (withVariant v s) hrest

/-! ### The step -/

theorem blockStep_withVariant_next {s t : State} (v : Variant) (h : blockStep s = .next t) :
    ∃ w, blockStep (withVariant v s) = .next (withVariant w t) := ⟨v, by rw [blockStep_withVariant, h, mapNext]⟩

/-- R9, R24: each move of the host, the block's own step included. -/
theorem hostStep_withVariant {m : HostMove} {s t : State} (v : Variant) (h : hostStep m s = .next t) :
    ∃ w, hostStep m (withVariant v s) = .next (withVariant w t) := by
  cases m with
  | idle => exact blockStep_withVariant_next v h
  | issue p =>
    cases h
    exact (command_withVariant p v s).imp fun w hw => congrArg _ hw
  | present input answer =>
    cases h
    exact ⟨v, rfl⟩

/-- Settles O57: the host's due move does not depend on the variant, and neither the move nor the block's own step does
more with it than keep it or latch another. -/
theorem variantHasNoEffect : Obligations.VariantHasNoEffect := by
  intro s t v hstep
  have hdue : dueMove (withVariant v s) = dueMove s := rfl
  have hdrop : dropMove (withVariant v s) = withVariant v (dropMove s) := rfl
  show ∃ w, step (withVariant v s) = .next (withVariant w t)
  unfold step transaction at hstep ⊢
  rw [hdue, hdrop]
  cases hm : dueMove s with
  | none =>
    rw [hm] at hstep
    exact blockStep_withVariant_next v hstep
  | some m =>
    rw [hm] at hstep
    exact hostStep_withVariant v hstep

end Sys2Proof.Proofs
end

section
/-! PROOFS. The line step's run of a decoded record and its overlong line (R141, R154), what a record leaves unchanged
(R36, R171 to R179), and both biases together (R183). -/
namespace Sys2Proof.Proofs
open Sys2Proof.Machine

/-! ### The line step -/

/-- Settles O18: the framed line is decoded, and in each of the three cases the checksum is not in the way. -/
theorem stepRunsDecodedInstruction : Obligations.StepRunsDecodedInstruction := by
  intro s u line pos i hframe hdec hpasses
  have hfree : ¬ checksumFails (lineRec line) (atPos u pos) = true := by
    rw [checksumFails_iff]
    rintro ⟨hdecode, hchecked, hbad⟩
    have hdecode' : u.phase = .decode := hdecode
    have hchecked' : u.ignoreCs = false := hchecked
    simp [hdecode', hchecked', hbad] at hpasses
  exact ((step_of_framesLine hframe).trans (processLine_of_ok hdec _)).trans (if_neg hfree)

/-- Settles O22: an overlong line is malformed, which raises in the decode pass only. -/
theorem overlongLineOutcome : Obligations.OverlongLineOutcome := by
  intro s u line pos hframe
  have hstep : step s = .next (malformed (atPos u pos)) := step_of_framesLine hframe
  constructor
  · intro hdecode
    have hraise := malformed_of_decode (atPos u pos) hdecode
    exact hstep.trans (congrArg _ hraise)
  · intro hscan
    have hskip := malformed_of_not_decode (atPos u pos) (by simp [hscan])
    exact hstep.trans (congrArg _ hskip)

/-! ### What a record leaves unchanged -/

/-- R95, R96: a well-formed record of a reserved type is no start-address record. -/
theorem typeByte_of_reserved {i : Instr} (hwf : i.wellFormed = true)
    (hu : ∃ ty r, i = .unknown06_07 ty r ∨ i = .unknown08_0F ty r ∨ i = .unknown10_1F ty r ∨
      i = .unknown20_3F ty r ∨ i = .unknown40_7F ty r ∨ i = .unknown80_FF ty r) :
    i.typeByte ≠ 0x03#8 ∧ i.typeByte ≠ 0x05#8 := by
  obtain ⟨ty, r, hi⟩ := hu
  have hrow : ty ≠ 0x03#8 ∧ ty ≠ 0x05#8 := by
    obtain ⟨-, -, -, h3, -, h5⟩ := Laws.TypeMapKeeps.not_record_type ty
      (by rcases hi with rfl | rfl | rfl | rfl | rfl | rfl <;> simp [(Bool.and_eq_true_iff.mp hwf).1])
    exact ⟨h3, h5⟩
  rcases hi with rfl | rfl | rfl | rfl | rfl | rfl <;> exact hrow

/-- Settles O34, along what an instruction's own effect can be: a raise writes `err` and `phase`, `end pass` writes
`phase` and `base_addr`, and an extension record writes its bias. -/
theorem nonDataFrame : Obligations.NonDataFrame := by
  intro i s t hdata hwf hexec
  cases exec_next i s t hexec with
  | scanData r _ ht | placed r off _ _ ht | outside r _ _ ht => exact absurd rfl hdata
  | endPass r ht =>
    subst ht
    rw [endPass_eq]
    simp [Instr.typeByte]
  | segBias r d0 d1 more hd ht | linBias r d0 d1 more hd ht => subst ht; simp [Instr.typeByte]
  | shortEsa r hd ht | shortEla r hd ht =>
    subst ht
    rcases malformed_cases s with ⟨-, he⟩ | ⟨-, he⟩ <;> rw [he] <;> simp [Instr.typeByte]
  | startSeg r ht | startLin r ht => subst ht; simp
  | reserved _ hu ht => subst ht; simp [typeByte_of_reserved hwf hu]

/-- Settles O35: the scan pass writes the scan result; a placed record writes its own bytes of the image; a record
outside the buffer raises. -/
theorem dataFrame : Obligations.DataFrame := by
  intro r s t hexec
  cases exec_next (.data r) s t hexec with
  | scanData _ hscan ht => subst ht; simp [hscan]
  | placed _ off hscan hoff ht =>
    subst ht
    refine ⟨?stored, ?nothingStored, by simp⟩
    case stored =>
      intro base o _ hbase houtside
      obtain rfl : base = off := Option.some.inj (hbase.symm.trans hoff)
      exact memory_read_writeBytes_outside r.data s.image base o houtside
    case nothingStored => simp [hscan, hoff]
  | outside _ hscan hoff ht => subst ht; simp
  | reserved _ hu ht => simp at hu

/-! ### Both biases (R183) -/

/-- Settles O36: the two bias laws give the registers after each record, and the effective address is their exact sum
with the record address. -/
theorem bothBiasesCombine : Obligations.BothBiasesCombine := by
  intro s x y a b _ _
  refine ⟨_, _, _, esaSetsSegmentBias _ s _ _ [] rfl, elaSetsLinearBias _ _ _ _ [] rfl, ?both,
    esaSetsSegmentBias _ _ _ _ [] rfl, ?linearOnly⟩
  case both => simp [toNat_effectiveAddress]
  case linearOnly => simp [toNat_effectiveAddress]

end Sys2Proof.Proofs
end

section
/-! PROOFS. The host's commands and reads (R41, R46, R47, R66, R200 to R203, R208, R270 to R278), and that every step
answers a next state. -/
namespace Sys2Proof.Proofs
open Sys2Proof.Machine

/-! ### The host's moves (R200, R201, R270, R277) -/

theorem dropMove_of_moves {s : State} {m : HostMove} {more : List HostMove} (h : s.host.moves = m :: more) :
    dropMove s = { s with host := { s.host with moves := more } } := by
  rw [dropMove, h, List.tail_cons]

/-- Outside a call every move of the host is made at once. -/
theorem admissible_of_atRest {s : State} (h : atRest s) (m : HostMove) : admissible m s = true := by
  have hidle : busy s = false := (busy_eq_false_iff s).mpr h
  cases m with
  | idle => rfl
  | present input answer => simp [admissible, hidle]
  | issue p => cases hcmd : p.cmd <;> simp [admissible, hcmd, hidle]

/-- The command port's transaction: the command runs in the state without the move. -/
theorem step_of_issue {s : State} {p : CommandPort} {more : List HostMove} (hm : s.host.moves = .issue p :: more)
    (ha : admissible (.issue p) s = true) :
    step s = .next (command p { s with host := { s.host with moves := more } }) := by
  rw [step_of_move s _ more hm ha, dropMove_of_moves hm, hostStep]

/-- Settles O37: SCAN is due outside a call, and `acceptScan` is the state written out. -/
theorem scanCommandStartsCall : Obligations.ScanCommandStartsCall := fun _ _ _ _ hrest hm =>
  step_of_issue hm (admissible_of_atRest hrest _)

/-- Settles O38: DECODE is due outside a call, and `acceptDecode` is the state written out. -/
theorem decodeCommandStartsCall : Obligations.DecodeCommandStartsCall := fun _ _ _ _ hrest hm =>
  step_of_issue hm (admissible_of_atRest hrest _)

/-- Settles O39: the move is not admissible while `busy = 1`, so the step is the block's, which leaves the host's side
alone. -/
theorem callCommandsWaitWhileBusy : Obligations.CallCommandsWaitWhileBusy := by
  intro s m more hbusy hm hkind
  have hwaits : admissible m s = false := by
    rcases hkind with ⟨p, rfl, hcmd | hcmd⟩ | ⟨input, answer, rfl⟩
    · simp [admissible, hcmd, hbusy]
    · simp [admissible, hcmd, hbusy]
    · simp [admissible, hbusy]
  have hstep := step_of_waiting s m more hm hwaits
  exact ⟨hstep, fun t ht => (blockStep_result (hstep.symm.trans ht)).host_eq⟩

/-- Settles O40: RESET is due in every phase, and `resetBlock` takes the registers of `State.reset`, whose values are
its definition. -/
theorem resetLoadsTheTable : Obligations.ResetLoadsTheTable := by
  refine ⟨?reset, ?values⟩
  case reset => exact fun s v ic more hm => ⟨_, step_of_issue hm rfl, rfl⟩
  case values => and_intros <;> rfl

/-- Settles O41: NOP is due in every phase and runs no operation; outside a call a new input is due, and `present` sets
the host's side. -/
theorem nopAndNewInput : Obligations.NopAndNewInput := by
  refine ⟨?nop, ?newInput⟩
  case nop => exact fun s v ic more hm => step_of_issue hm rfl
  case newInput =>
    intro s input answer more hrest hm
    rw [step_of_move s _ more hm (admissible_of_atRest hrest _), dropMove_of_moves hm, hostStep, present]

/-! ### Steps outside a call, and totality (R206, R245, R252, R272) -/

/-- Settles O42: the step on the block's turn is the block's own, which does nothing at rest. -/
theorem noStepOutsideCall : Obligations.NoStepOutsideCall := fun s u hturn hrest =>
  (step_of_blockTurn s u hturn).trans (blockStep_of_atRest u hrest)

/-- Settles O48: the block's own step answers a next state, and so do a command and a new input. -/
theorem everyStepGoesOn : Obligations.EveryStepGoesOn := by
  intro s
  rcases step_cases s with ⟨u, -, hown⟩ | ⟨p, more, -, -, hissue⟩ | ⟨input, answer, more, -, -, hinput⟩
  · exact (blockStep_next u).imp fun _ ht => hown.trans ht
  · exact ⟨_, hissue⟩
  · exact ⟨_, hinput⟩

/-! ### Results and status (R37, R46, R66, R208, R240) -/

/-- Settles O45: the scan pass of a scan call ends in DONE with its call kept; `BiasShapes` gives the entry address
(R30). -/
theorem scanCallResult : Obligations.ScanCallResult := by
  intro s hshapes hscan hcall
  obtain ⟨-, -, hentry⟩ := hshapes
  rw [endPass_of_scanCall s hscan hcall, ← hentry]
  exact ⟨rfl, if_pos ⟨rfl, hcall⟩⟩

/-- Settles O47: the phase, then the bounds, then the image decide what the host's read answers. -/
theorem imageReadByHost : Obligations.ImageReadByHost := by
  intro s off
  refine ⟨?inside, ?outside, ?notDone⟩
  case inside =>
    intro hdone hgranted hin
    constructor
    · intro b hb
      rw [readImage, if_neg (by simp [hdone]), if_pos ⟨hgranted, hin⟩, hb]
    · intro hgap
      rw [readImage, if_neg (by simp [hdone]), if_pos ⟨hgranted, hin⟩, hgap]
  case outside =>
    intro hdone houtside
    have hnot : ¬ (s.bufGranted = true ∧ off < s.bufSize) := by
      rintro ⟨hgranted, hin⟩
      rcases houtside with hle | hnone
      · omega
      · simp [hnone] at hgranted
    rw [readImage, if_neg (by simp [hdone]), if_neg hnot]
  case notDone => exact fun hphase => if_pos hphase

/-- R37: `busy` holds in the three phases of a call. -/
theorem busy_iff (s : State) : busy s = true ↔ s.phase = .scan ∨ s.phase = .alloc ∨ s.phase = .decode := by
  simp [busy, or_assoc]

theorem error_iff (s : State) : error s = true ↔ s.phase = .error := beq_iff_eq

/-- R211: the sentinel as numbers. -/
theorem empty_iff_toNat (s : State) :
    empty s = true ↔ s.minAddr.toNat = 0xFFFFFFFF ∧ s.maxAddr.toNat = 0 := by
  rw [empty_iff, ← BitVec.toNat_inj, ← BitVec.toNat_inj]
  rfl

/-- Settles O50: the levels by their phases, the port by its definition, the results by their own condition, and the
error level by the invariant of `err`. -/
theorem statusAndErrorCodes : Obligations.StatusAndErrorCodes := by
  refine ⟨?levels, by decide, ?port, by decide, ?soundError⟩
  case levels => exact fun s => ⟨busy_iff s, beq_iff_eq, error_iff s, empty_iff_toNat s⟩
  case port =>
    intro s
    refine ⟨rfl, rfl, rfl, rfl, rfl, rfl, rfl, rfl, rfl, rfl, rfl, rfl, fun hphase => ?_⟩
    exact ⟨if_neg fun h => hphase h.1, if_neg fun h => hphase h.1⟩
  case soundError =>
    intro s hinv
    rw [error_iff, Ne, hinv.call.errInError, not_not]

end Sys2Proof.Proofs
end

section
/-! PROOFS. Runs of the machine, and what an unanswered request does to them (R276): the block waits, and a pass over an
input without `End` goes on. -/
namespace Sys2Proof.Proofs
open Sys2Proof.Machine

/-! ### Runs -/

theorem run_zero (s : State) : core.run 0 s = .next s := rfl

/-- A run goes on from the next state of its first step. -/
theorem run_succ_of_step {s t : State} (h : step s = .next t) (n : Nat) : core.run (n + 1) s = core.run n t := by
  have hstep : core.step s = .next t := h
  simp only [Host.Core.run, hstep]

/-- What every step keeps holds along every run. -/
theorem run_keeps {P : State → Prop} (hkeeps : ∀ s t, P s → step s = .next t → P t) {n : Nat} {s t : State}
    (hs : P s) (hrun : core.run n s = .next t) : P t := by
  induction n generalizing s with
  | zero =>
    cases hrun
    exact hs
  | succ n ih =>
    obtain ⟨u, hstep⟩ := everyStepGoesOn s
    rw [run_succ_of_step hstep] at hrun
    exact ih (hkeeps s u hs hstep) hrun

/-! ### A held block (R213, R276) -/

/-- A block that waits is in a call. -/
theorem busy_of_held {s : State} (h : held s) : busy s = true := by
  rw [busy_iff]
  rcases h with ⟨hpass, -, -⟩ | ⟨halloc, -, -⟩
  · exact inPass_call hpass
  · exact .inr (.inl halloc)

/-- The moves to come do not lift the hold. -/
theorem held_dropMove {s : State} (h : held s) : held (dropMove s) := h

theorem noReset_dropMove {s : State} (h : noReset s) : noReset (dropMove s) :=
  fun p hp => h p (List.mem_of_mem_tail hp)

/-- R20, R276: the block's own step leaves a held block as it is. -/
theorem blockStep_of_held {s : State} (h : held s) : blockStep s = .next s := by
  rcases h with ⟨hpass, hhold, herr⟩ | ⟨halloc, hsilent, n, hn⟩
  · exact blockStep_of_unanswered s hpass hhold herr
  · exact blockStep_of_silent s n halloc hn hsilent

/-- R276, R277: a step of a held block spends at most a move of the host, where no RESET is to come. -/
theorem step_of_held {s : State} (h : held s) (hno : noReset s) :
    step s = .next s ∨ step s = .next (dropMove s) := by
  have hbusy := busy_of_held h
  rcases step_cases s with ⟨u, hturn, hown⟩ | ⟨p, more, hmoves, hdue, hissue⟩ | ⟨input, answer, more, -, hrest, -⟩
  · rcases blockTurn_eq s u hturn with rfl | rfl
    · exact .inl (hown.trans (blockStep_of_held h))
    · exact .inr (hown.trans (blockStep_of_held (held_dropMove h)))
  · cases hcmd : p.cmd with
    | nop => exact .inr (by rw [hissue, command_of_nop hcmd])
    | reset => exact absurd hcmd (hno p (by simp [hmoves]))
    | scan | decode => simp [admissible, hcmd, hbusy] at hdue
  · rw [← busy_eq_false_iff, hbusy] at hrest
    cases hrest

/-- R276: a held block stays as it is through any number of steps. -/
theorem run_of_held {s : State} (n : Nat) (h : held s) (hno : noReset s) :
    ∃ t, core.run n s = .next t ∧ t = { s with host := { s.host with moves := t.host.moves } } := by
  induction n generalizing s with
  | zero => exact ⟨s, run_zero s, rfl⟩
  | succ n ih =>
    rcases step_of_held h hno with hstep | hstep
    · rw [run_succ_of_step hstep]
      exact ih h hno
    · rw [run_succ_of_step hstep]
      exact ih (held_dropMove h) (noReset_dropMove hno)

/-! ### An input without `End` (R276) -/

theorem meetsNoEof_of_step {s t : State} (h : meetsNoEof s) (hstep : step s = .next t) : meetsNoEof t :=
  fun k t' line r hrun => h (k + 1) t' line r ((run_succ_of_step hstep k).trans hrun)

/-- R206, R276: with neither `End` nor an EOF record, a pass goes on or ends in an error. -/
theorem phase_of_endless_pass {s t : State} (hmoves : s.host.moves = []) (hcycle : s.host.input.cycle ≠ [])
    (hno : meetsNoEof s) (hpass : inPass s) (hstep : step s = .next t) : t.phase = s.phase ∨ t.phase = .error := by
  by_contra hphase
  rw [not_or] at hphase
  have hturn := blockTurn_of_no_moves s hmoves
  rcases waysOutOfAPass s s t hturn hpass hstep hphase.1 with herror | ⟨-, hend | ⟨line, r, hf, hdec⟩⟩
  · exact hphase.2 herror
  · exact frameLine_ne_endOfInput s hcycle hend
  · exact hno 0 s line r (run_zero s) hf hdec

/-- The same along a run: in ERROR the block stays. -/
theorem run_of_endless_pass {s : State} (n : Nat) (hmoves : s.host.moves = []) (hcycle : s.host.input.cycle ≠ [])
    (hno : meetsNoEof s) (hphase : inPass s ∨ s.phase = .error) :
    ∃ t, core.run n s = .next t ∧ (t.phase = s.phase ∨ t.phase = .error) := by
  induction n generalizing s with
  | zero => exact ⟨s, run_zero s, .inl rfl⟩
  | succ n ih =>
    obtain ⟨u, hstep⟩ := everyStepGoesOn s
    have hturn := blockTurn_of_no_moves s hmoves
    have hhost : u.host = s.host := (blockResult_of_turn hturn hstep).host_eq
    have hu : u.phase = s.phase ∨ u.phase = .error := by
      rcases hphase with hpass | herror
      · exact phase_of_endless_pass hmoves hcycle hno hpass hstep
      · have hstay := noStepOutsideCall s s hturn (.inr (.inr herror))
        rw [hstay] at hstep
        cases hstep
        exact .inl rfl
    have hgoes : inPass u ∨ u.phase = .error := by
      rcases hu with hsame | herror
      · rwa [inPass, hsame]
      · exact .inr herror
    obtain ⟨t, hrun, ht⟩ := ih (by rw [hhost, hmoves]) (by rwa [hhost]) (meetsNoEof_of_step hno hstep) hgoes
    refine ⟨t, (run_succ_of_step hstep n).trans hrun, ?_⟩
    rcases ht with ht | ht
    · rw [ht]
      exact hu
    · exact .inr ht

/-- Settles O15: the line step of a framing that has not returned, the run of a held block, and the run of a pass whose
input does not end. -/
theorem unansweredRequestsHold : Obligations.UnansweredRequestsHold := by
  refine ⟨?waiting, ?holds, ?endless⟩
  case waiting =>
    intro s u pos hframe
    refine ⟨step_of_framesLine hframe, fun hhold => ?_⟩
    obtain ⟨-, hpass, hf⟩ := hframe
    obtain ⟨-, -, -, hwaiting⟩ := framingConsumesTheLine u
    obtain ⟨-, -, herr, -⟩ := hwaiting pos hf
    exact .inl ⟨hpass, hhold, herr⟩
  case holds => exact fun s n h hno => run_of_held n h hno
  case endless => exact fun s n hpass hmoves hcycle hno => run_of_endless_pass n hmoves hcycle hno (.inl hpass)

end Sys2Proof.Proofs
end

section
/-! PROOFS. Every call ends (R206, R283): each step of a call with an answering host spends some of the bytes that the
two passes have left to read. -/
namespace Sys2Proof.Proofs
open Sys2Proof.Machine

/-! ### What is left of a call -/

/-- The most steps a call can still take: a line step for each unread byte of each pass to come and one for its end,
and the allocation step. -/
def stepsLeft (s : State) : Nat :=
  match s.phase with
  | .scan => (s.host.input.bytes.length - s.inPos) + s.host.input.bytes.length + 3
  | .alloc => s.host.input.bytes.length + 2
  | .decode => (s.host.input.bytes.length - s.inPos) + 1
  | .idle | .done | .error => 0

theorem stepsLeft_of_scan {s : State} (h : s.phase = .scan) :
    stepsLeft s = (s.host.input.bytes.length - s.inPos) + s.host.input.bytes.length + 3 := by
  simp [stepsLeft, h]

theorem stepsLeft_of_alloc {s : State} (h : s.phase = .alloc) : stepsLeft s = s.host.input.bytes.length + 2 := by
  simp [stepsLeft, h]

theorem stepsLeft_of_decode {s : State} (h : s.phase = .decode) :
    stepsLeft s = (s.host.input.bytes.length - s.inPos) + 1 := by
  simp [stepsLeft, h]

theorem stepsLeft_of_callOver {s : State} (h : callOver s) : stepsLeft s = 0 := by
  rcases h with h | h <;> simp [stepsLeft, h]

/-- The two passes over the input bound what is left of a call. -/
theorem stepsLeft_le (s : State) : stepsLeft s ≤ 2 * s.host.input.bytes.length + 3 := by
  cases hphase : s.phase <;> simp [stepsLeft, hphase] <;> omega

theorem stepsLeft_pos_of_busy {s : State} (h : busy s = true) : 0 < stepsLeft s := by
  rw [busy_iff] at h
  rcases h with h | h | h <;> simp [stepsLeft, h]

/-! ### Progress (R140, R276) -/

/-- Where the host answers every read, framing that meets neither `End` nor a failed read consumes a byte or more. -/
theorem frameLine_progress {s : State} (ha : Answers s) (hgo : GoesOn (frameLine s).1) :
    s.inPos < (frameLine s).2 ∧ s.inPos < s.host.input.bytes.length := by
  obtain ⟨hend, herr⟩ := hgo
  have hline : ∀ line pos, frameLine s = (.line line, pos) ∨ frameLine s = (.tooLong line, pos) →
      s.inPos < pos ∧ s.inPos < s.host.input.bytes.length := by
    intro line pos h
    obtain ⟨hne, hpos, htake, -, -⟩ := frameLine_consumes h
    have hlen := congrArg List.length htake
    rw [inputRest_of_ends s ha.ends, List.length_take, List.length_drop] at hlen
    have := List.length_pos_of_ne_nil hne
    omega
  rcases hframe : frameLine s with ⟨f, pos⟩
  rw [hframe] at hend herr
  cases f with
  | line line => exact hline line pos (.inl hframe)
  | tooLong line => exact hline line pos (.inr hframe)
  | endOfInput => exact absurd (.inl rfl) hend
  | readError => exact absurd rfl herr
  | waiting =>
    rcases frameLine_waiting_cause hframe with hhold | ⟨-, hcycle, -, -⟩
    · have hnone : readHoldAt s = none := by
        unfold readHoldAt
        split
        · exact ha.decodeReads
        · exact ha.scanReads
      rw [hnone] at hhold
      cases hhold
    · exact absurd ha.ends hcycle

/-- R206, R283: a step of a call ends it, or leaves fewer steps. -/
theorem stepsLeft_decreases {s t : State} (hinv : Inv s) (hbusy : busy s = true) (ha : Answers s)
    (h : BlockResult s t) : callOver t ∨ busy t = true ∧ stepsLeft t < stepsLeft s := by
  have hlen : t.host.input.bytes.length = s.host.input.bytes.length := by rw [h.host_eq]
  cases h with
  | stays hstays ht =>
    rcases hstays with hrest | ⟨-, hsilent⟩
    · rw [← busy_eq_false_iff, hbusy] at hrest
      cases hrest
    · exact absurd hsilent ha.alloc
  | raised e pos he ht => exact .inl (.inr (congrArg State.phase ht))
  | granted n halloc hn ht =>
    have hdecode : t.phase = .decode := congrArg State.phase ht
    have hpos : t.inPos = 0 := congrArg State.inPos ht
    refine .inr ⟨by simp [busy_iff, hdecode], ?_⟩
    rw [stepsLeft_of_decode hdecode, stepsLeft_of_alloc halloc, hlen, hpos]
    omega
  | passEnd hpass hf ht =>
    rcases endPass_cases (afterRead s) with ⟨-, -, he⟩ | ⟨hscan, -, he⟩ | ⟨-, he⟩ | ⟨hcall, hdecode, -⟩
    · exact .inl (.inl (congrArg State.phase (ht.trans he)))
    · have halloc : t.phase = .alloc := congrArg State.phase (ht.trans he)
      have hscan' : s.phase = .scan := hscan
      refine .inr ⟨by simp [busy_iff, halloc], ?_⟩
      rw [stepsLeft_of_alloc halloc, stepsLeft_of_scan hscan', hlen]
      omega
    · exact .inl (.inl (congrArg State.phase (ht.trans he)))
    · have hscan : s.phase = .scan := hpass.resolve_right hdecode
      have hidle := hinv.call.callInIdle.mp (hcall hscan)
      simp [hscan] at hidle
  | goesOn hpass hgo heff =>
    obtain ⟨hmore, hin⟩ := frameLine_progress ha hgo
    have hphase : t.phase = s.phase := heff.phase_eq
    have hpos : t.inPos = (frameLine s).2 := heff.inPos_eq
    refine .inr ⟨by rwa [busy_iff, hphase, ← busy_iff], ?_⟩
    rcases hpass with hscan | hdecode
    · rw [stepsLeft_of_scan (hphase.trans hscan), stepsLeft_of_scan hscan, hlen, hpos]
      omega
    · rw [stepsLeft_of_decode (hphase.trans hdecode), stepsLeft_of_decode hdecode, hlen, hpos]
      omega

/-- The call is over after at most as many steps as are left of it. -/
theorem callOver_within_stepsLeft (n : Nat) {s : State} (hn : stepsLeft s ≤ n) (hinv : Inv s) (hbusy : busy s = true)
    (hmoves : s.host.moves = []) (ha : Answers s) : ∃ k t, k ≤ n ∧ core.run k s = .next t ∧ callOver t := by
  induction n generalizing s with
  | zero =>
    have := stepsLeft_pos_of_busy hbusy
    omega
  | succ n ih =>
    obtain ⟨u, hstep⟩ := everyStepGoesOn s
    have hres := blockResult_of_turn (blockTurn_of_no_moves s hmoves) hstep
    rcases stepsLeft_decreases hinv hbusy ha hres with hover | ⟨hbusy', hless⟩
    · exact ⟨1, u, by omega, (run_succ_of_step hstep 0).trans (run_zero u), hover⟩
    · have hhost := hres.host_eq
      have ha' : Answers u := by
        constructor <;> rw [hhost]
        exacts [ha.ends, ha.scanReads, ha.decodeReads, ha.alloc]
      obtain ⟨k, t, hk, hrun, hover⟩ := ih (by omega) (inv_step hinv hstep) hbusy' (by rw [hhost, hmoves]) ha'
      exact ⟨k + 1, t, by omega, (run_succ_of_step hstep k).trans hrun, hover⟩

/-- Settles O58: the steps left of a call are at most two passes over the input and three more. -/
theorem everyCallEnds : Obligations.EveryCallEnds := fun s hinv hbusy hmoves ha =>
  callOver_within_stepsLeft _ (stepsLeft_le s) hinv hbusy hmoves ha

end Sys2Proof.Proofs
end

section
/-! PROOFS. The two passes of a decode call over a stable input (R221): what the decode pass meets, the scan pass has
met at the same stream position with the same biases, so its type and its placement are already settled. -/
namespace Sys2Proof.Proofs
open Sys2Proof.Machine

/-! ### Framing apart from failed and unanswered reads (R140, R274) -/

/-- Reads that are all answered with a byte or `End`. -/
def cleanReads : Reads := { errAt := none, holdAt := none, endless := false }

theorem cleanReads_errAt (pos : Nat) : ¬ cleanReads.errAt = some pos := by simp [cleanReads]

theorem cleanReads_holdAt (pos : Nat) : ¬ cleanReads.holdAt = some pos := by simp [cleanReads]

/-- What framing answers at a stream position of the input of `s` where every read is answered. -/
def cleanFrame (s : State) (pos : Nat) : Frame × Nat :=
  frameFrom s.longLinePolicy cleanReads (inputRest (atPos s pos)) pos []

/-- Framing has returned, and not on a failed read. -/
def Settled (f : Frame) : Prop := f ≠ .readError ∧ f ≠ .waiting

/-- R140: an answer that is settled does not depend on which other reads would fail or be left unanswered. -/
theorem frameFrom_of_settled (policy : LongLinePolicy) (reads : Reads) (rest : List Byte) (pos : Nat)
    (line : List Byte) (h : Settled (frameFrom policy reads rest pos line).1) :
    frameFrom policy reads rest pos line = frameFrom policy cleanReads rest pos line := by
  induction rest generalizing pos line with
  | nil =>
    unfold frameFrom at h ⊢
    split at h
    · exact absurd rfl h.1
    next he =>
      split at h
      · exact absurd rfl h.2
      next hh =>
        have hclean : ¬ (cleanReads.holdAt = some pos ∨ cleanReads.endless = true) := by simp [cleanReads]
        rw [if_neg he, if_neg hh, if_neg (cleanReads_errAt pos), if_neg hclean]
  | cons b rest ih =>
    unfold frameFrom at h ⊢
    split at h
    · exact absurd rfl h.1
    next he =>
      split at h
      · exact absurd rfl h.2
      next hh =>
        rw [if_neg he, if_neg hh, if_neg (cleanReads_errAt pos), if_neg (cleanReads_holdAt pos)]
        split
        · rfl
        next hb =>
          rw [if_neg hb] at h
          split
          · rfl
          next hs =>
            rw [if_neg hs] at h
            exact ih _ _ h

theorem frameLine_of_settled {s : State} (h : Settled (frameLine s).1) : frameLine s = cleanFrame s s.inPos :=
  frameFrom_of_settled _ _ _ _ _ h

/-- The frames of an input are the same in every state that holds it. -/
theorem cleanFrame_congr {s t : State} (hhost : t.host = s.host) (hpolicy : t.longLinePolicy = s.longLinePolicy) :
    cleanFrame t = cleanFrame s := by
  funext pos
  simp only [cleanFrame, inputRest, atPos, hhost, hpolicy]

theorem settled_of_endsPass {f : Frame} (h : EndsPass f) : Settled f := by
  rcases h with rfl | ⟨line, r, rfl, -⟩
  · exact ⟨nofun, nofun⟩
  · exact ⟨nofun, nofun⟩

/-! ### A pass that cannot frame another line (R276) -/

/-- The pass meets no line any more: its next read is never answered, or, under FAULT, an endless input holds no LF. -/
def Stuck (s : State) : Prop :=
  readHoldAt s = some s.inPos ∨
    s.longLinePolicy = .fault ∧ s.host.input.cycle ≠ [] ∧ chLF ∉ s.host.input.cycle ∧
      s.host.input.bytes.length ≤ s.inPos

/-- R276: under FAULT a line without LF and without end is never framed. -/
theorem frameFrom_endless (reads : Reads) (rest : List Byte) (pos : Nat) (line : List Byte)
    (hends : reads.endless = true) (hlf : chLF ∉ rest) : ¬ Settled (frameFrom .fault reads rest pos line).1 := by
  induction rest generalizing pos line with
  | nil =>
    rw [frameFrom, hends]
    split <;> simp [Settled]
  | cons b rest ih =>
    simp only [List.mem_cons, not_or] at hlf
    have hsplit : ¬ splitHere .fault (line ++ [b]) = true := by simp [splitHere]
    rw [frameFrom, if_neg (Ne.symm hlf.1), if_neg hsplit]
    split
    · simp [Settled]
    · split
      · simp [Settled]
      · exact ih _ _ hlf.2

/-- A read that is never answered is not passed. -/
theorem not_settled_of_hold {s : State} (h : readHoldAt s = some s.inPos) : ¬ Settled (frameLine s).1 := by
  by_cases herr : readErrAt s = some s.inPos
  · have herr' : (passReads s).errAt = some s.inPos := herr
    unfold frameLine
    cases inputRest s <;> rw [frameFrom, if_pos herr'] <;> exact fun hsettled => hsettled.1 rfl
  · rw [frameLine_of_unanswered s h herr]
    simp [Settled]

theorem not_settled_of_stuck {s : State} (h : Stuck s) : ¬ Settled (frameLine s).1 := by
  rcases h with hhold | ⟨hpolicy, hcycle, hlf, hpast⟩
  · exact not_settled_of_hold hhold
  · rw [frameLine, hpolicy]
    refine frameFrom_endless _ _ _ _ ((passReads_endless s).mpr hcycle) ?_
    rw [inputRest, List.drop_eq_nil_of_le hpast, List.nil_append]
    exact fun hmem => hlf (mem_of_mem_cycleFrom _ _ _ _ hmem)

/-- R276: framing that has not returned leaves the pass stuck at the position it has read to. -/
theorem stuck_of_waiting {s : State} (h : (frameLine s).1 = .waiting) : Stuck (afterRead s) := by
  have hframe : frameLine s = (.waiting, (frameLine s).2) := Prod.ext h rfl
  rcases frameLine_waiting_cause hframe with hhold | ⟨hpolicy, hcycle, hlf, hpos⟩
  · exact .inl hhold
  · refine .inr ⟨hpolicy, hcycle, hlf, ?_⟩
    show s.host.input.bytes.length ≤ (frameLine s).2
    rw [hpos, inputRest, List.length_append, List.length_drop]
    omega

/-- A line step that raises nothing either leaves the pass stuck, or has framed what any pass frames there. -/
theorem stuck_or_settled {s t : State} (hstep : lineStep s = .next t) (hphase : t.phase ≠ .error) :
    Stuck t ∨ ¬ Stuck s ∧ frameLine s = cleanFrame s s.inPos := by
  have hline := lineStep_next s t hstep
  by_cases hsettled : Settled (frameLine s).1
  · exact .inr ⟨fun hstuck => not_settled_of_stuck hstuck hsettled, frameLine_of_settled hsettled⟩
  · rw [Settled, not_and_or, not_not, not_not] at hsettled
    rcases hsettled with hf | hf
    · rw [hf] at hline
      cases hline with
      | readError ht => exact absurd (congrArg State.phase ht) hphase
    · have hstuck := stuck_of_waiting hf
      rw [hf] at hline
      cases hline with
      | waiting ht => exact .inl (ht ▸ hstuck)

/-! ### Where a pass stands -/

/-- What a pass's next line depends on: the stream position, and the biases that place its record (R170). -/
structure Cursor where
  pos : Nat
  segBias : Word32
  linBias : Word32

def cursorOf (s : State) : Cursor := { pos := s.inPos, segBias := s.segBias, linBias := s.linBias }

theorem cursorOf_pos (s : State) : (cursorOf s).pos = s.inPos := rfl

/-- R203: where a pass starts. -/
def Cursor.start : Cursor := { pos := 0, segBias := 0#32, linBias := 0#32 }

def Cursor.readTo (c : Cursor) (pos : Nat) : Cursor := { c with pos := pos }

/-- R170: the effective address of a Data record met here. -/
def Cursor.address (c : Cursor) (r : Record) : Nat :=
  (r.address.toNat + c.segBias.toNat + c.linBias.toNat) % 2 ^ 32

/-- R171: the maximum candidate of a Data record met here. -/
def Cursor.lastAddress (c : Cursor) (r : Record) : Nat := (c.address r + r.count + (2 ^ 32 - 1)) % 2 ^ 32

/-- R174, R176: the cursor after a record. -/
def Cursor.afterRecord (c : Cursor) : Instr → Cursor
  | .esa r => match r.data with
    | d0 :: d1 :: _ => { c with segBias := segmentBiasOf d0 d1 }
    | _ => c
  | .ela r => match r.data with
    | d0 :: d1 :: _ => { c with linBias := linearBiasOf d0 d1 }
    | _ => c
  | _ => c

/-- The cursor after a framing outcome. -/
def Cursor.after (c : Cursor) : Frame → Cursor
  | .line line => match decodeLine line with
    | .ok i => c.afterRecord i
    | .error _ => c
  | _ => c

theorem cursorOf_malformed (s : State) : cursorOf (malformed s) = cursorOf s := by
  rcases malformed_cases s with ⟨-, he⟩ | ⟨-, he⟩
  · exact he ▸ rfl
  · rw [he]

theorem cursorOf_endPass (s : State) : cursorOf (endPass s) = cursorOf s := by
  rw [endPass_eq]
  rfl

/-- R179: a short extension record leaves the cursor. -/
theorem afterRecord_of_short {r : Record} (c : Cursor) (h : r.count < 2) :
    c.afterRecord (.esa r) = c ∧ c.afterRecord (.ela r) = c := by
  match hd : r.data with
  | [] | [_] => simp [Cursor.afterRecord, hd]
  | d0 :: d1 :: more => simp [Record.count, hd] at h

/-- R178: a reserved type byte. -/
def Reserved (i : Instr) : Prop :=
  ∃ ty r, i = .unknown06_07 ty r ∨ i = .unknown08_0F ty r ∨ i = .unknown10_1F ty r ∨ i = .unknown20_3F ty r ∨
    i = .unknown40_7F ty r ∨ i = .unknown80_FF ty r

theorem phase_of_reserved {v t : State} {i : Instr} (h : Reserved i) (hexec : exec i v = .next t) :
    t.phase = .error := by
  obtain ⟨ty, r, hi⟩ := h
  rw [reservedTypesRaise ty r v i hi] at hexec
  cases hexec
  rfl

/-- A record moves the cursor alike in both passes. -/
theorem cursorOf_exec {v t : State} {i : Instr} (h : ExecResult v t i) :
    cursorOf t = (cursorOf v).afterRecord i := by
  cases h with
  | scanData r _ ht | placed r _ _ _ ht | outside r _ _ ht | startSeg r ht | startLin r ht => exact ht ▸ rfl
  | endPass r ht => exact ht ▸ cursorOf_endPass v
  | segBias r d0 d1 more hd ht | linBias r d0 d1 more hd ht => simp only [ht, Cursor.afterRecord, hd]; rfl
  | shortEsa r hd ht => rw [ht, cursorOf_malformed, (afterRecord_of_short _ hd).1]
  | shortEla r hd ht => rw [ht, cursorOf_malformed, (afterRecord_of_short _ hd).2]
  | reserved i hu ht =>
    obtain ⟨ty, r, hi⟩ := hu
    rcases hi with rfl | rfl | rfl | rfl | rfl | rfl <;> exact ht ▸ rfl

theorem after_line_ok {line : List Byte} {i : Instr} (c : Cursor) (h : decodeLine line = .ok i) :
    c.after (.line line) = c.afterRecord i := by
  rw [Cursor.after, h]

theorem after_line_error {line : List Byte} {e : DecodeError} (c : Cursor) (h : decodeLine line = .error e) :
    c.after (.line line) = c := by
  rw [Cursor.after, h]

/-- A line that raises nothing moves the cursor alike in both passes: only a failing checksum keeps a record from its
dispatch, and it raises. -/
theorem cursorOf_line {v t : State} {f : Frame} (h : LineResult v t f) (hphase : t.phase ≠ .error) :
    cursorOf t = (cursorOf v).after f := by
  cases h with
  | readError ht => exact absurd (congrArg State.phase ht) hphase
  | endOfInput ht => exact ht ▸ cursorOf_endPass v
  | tooLong line ht => exact ht ▸ cursorOf_malformed v
  | waiting ht => exact ht ▸ rfl
  | skipped line he ht => rw [ht, after_line_error _ he]
  | tooShort line he ht => rw [ht, cursorOf_malformed, after_line_error _ he]
  | badChecksum line i hi hc ht => exact absurd (congrArg State.phase ht) hphase
  | ran line i hi hc hx hr => rw [cursorOf_exec hr, after_line_ok _ hi]

/-! ### What the scan pass settles (R171, R178) -/

/-- The line met at a cursor holds no reserved type, and a Data record in it lies within the bounds of the scan
result. -/
def Fits (lo hi : Nat) (c : Cursor) (f : Frame) : Prop :=
  ∀ line i, f = .line line → decodeLine line = .ok i →
    ¬ Reserved i ∧ ∀ r, i = .data r → lo ≤ c.address r ∧ c.lastAddress r ≤ hi

/-- Wider bounds hold too. -/
theorem Fits.mono {lo hi lo' hi' : Nat} {c : Cursor} {f : Frame} (h : Fits lo hi c f) (hlo : lo' ≤ lo)
    (hhi : hi ≤ hi') : Fits lo' hi' c f := by
  intro line i hf hdec
  obtain ⟨hres, hdata⟩ := h line i hf hdec
  exact ⟨hres, fun r hr => ⟨hlo.trans (hdata r hr).1, (hdata r hr).2.trans hhi⟩⟩

/-- From the cursor on, a pass that frames `frames` meets only lines that fit, until it ends. -/
inductive CleanPass (frames : Nat → Frame × Nat) (lo hi : Nat) : Cursor → Prop where
  | ended (c : Cursor) (hend : EndsPass (frames c.pos).1) : CleanPass frames lo hi c
  | next (c : Cursor) (hfits : Fits lo hi (c.readTo (frames c.pos).2) (frames c.pos).1)
      (hrest : CleanPass frames lo hi ((c.readTo (frames c.pos).2).after (frames c.pos).1)) : CleanPass frames lo hi c

/-- R171, R178: a line of the scan pass that raises nothing fits the scan result after it. -/
theorem fits_of_scan {v t : State} {f : Frame} (h : LineResult v t f) (hscan : v.phase = .scan)
    (hphase : t.phase ≠ .error) : Fits t.minAddr.toNat t.maxAddr.toNat (cursorOf v) f := by
  rintro line i rfl hdec
  cases h with
  | skipped _ he ht | tooShort _ he ht => rw [hdec] at he; cases he
  | badChecksum _ _ _ _ ht => exact absurd (congrArg State.phase ht) hphase
  | ran _ j hj hc hx hr =>
    obtain rfl : i = j := Except.ok.inj (hdec.symm.trans hj)
    refine ⟨fun hres => hphase (phase_of_reserved hres hx), ?_⟩
    rintro r rfl
    rw [exec_data_of_scan hscan] at hx
    cases hx
    rw [scanData_minAddr, scanData_maxAddr, toNat_wordMin, toNat_wordMax, toNat_maxCandidate, toNat_effectiveAddress]
    exact ⟨min_le_right _ _, le_max_right _ _⟩

/-- R171: the scan result only widens. -/
theorem bounds_widen {v t : State} (h : LineEffect v t) :
    t.minAddr.toNat ≤ v.minAddr.toNat ∧ v.maxAddr.toNat ≤ t.maxAddr.toNat := by
  cases h with
  | scanned r _ ht =>
    rw [ht, scanData_minAddr, scanData_maxAddr, toNat_wordMin, toNat_wordMax]
    exact ⟨min_le_left _ _, le_max_left _ _⟩
  | nothing ht | placed _ _ _ _ ht | segBias _ _ ht | linBias _ _ ht => exact ht ▸ ⟨le_rfl, le_rfl⟩

/-- R178: what raises UnknownRecordType in a line step is a reserved type. -/
theorem reserved_of_unknownRecordType {v t : State} {f : Frame} (h : LineResult v t f)
    (hv : v.err ≠ .unknownRecordType) (ht : t.err = .unknownRecordType) :
    ∃ line i, f = .line line ∧ decodeLine line = .ok i ∧ Reserved i := by
  have hmalformed : (malformed v).err ≠ .unknownRecordType := by
    rcases malformed_cases v with ⟨-, he⟩ | ⟨-, he⟩ <;> rw [he]
    · exact nofun
    · exact hv
  have hend : (endPass v).err ≠ .unknownRecordType := by rwa [endPass_eq]
  cases h with
  | readError he | badChecksum _ _ _ _ he => rw [he] at ht; cases ht
  | endOfInput he => exact absurd (he ▸ ht) hend
  | tooLong _ he | tooShort _ _ he => exact absurd (he ▸ ht) hmalformed
  | waiting he | skipped _ _ he => exact absurd (he ▸ ht) hv
  | ran line i hi hc hx hr =>
    cases hr with
    | reserved _ hu _ => exact ⟨line, i, rfl, hi, hu⟩
    | outside _ _ _ he => rw [he] at ht; cases ht
    | endPass _ he => exact absurd (he ▸ ht) hend
    | shortEsa _ _ he | shortEla _ _ he => exact absurd (he ▸ ht) hmalformed
    | scanData _ _ he | placed _ _ _ _ he | segBias _ _ _ _ _ he | linBias _ _ _ _ _ he | startSeg _ he
    | startLin _ he => exact absurd ((congrArg State.err he).symm.trans ht) hv

/-! ### The run of a decode call -/

/-- What holds along a decode call of a host that issues nothing more. In the scan pass, what is left of the pass, if
clean, makes the whole pass clean; the allocation stands after a clean pass, and so the decode pass is clean from where
it stands on. A pass that is stuck meets no line any more. -/
structure Tracked (s : State) : Prop where
  noMoves : s.host.moves = []
  sound : Inv s
  call : s.call = .decodeCall
  scanPass : s.phase = .scan → Stuck s ∨ ∀ lo hi, lo ≤ s.minAddr.toNat → s.maxAddr.toNat ≤ hi →
    CleanPass (cleanFrame s) lo hi (cursorOf s) → CleanPass (cleanFrame s) lo hi Cursor.start
  allocation : s.phase = .alloc → CleanPass (cleanFrame s) s.minAddr.toNat s.maxAddr.toNat Cursor.start
  decodePass : s.phase = .decode → Stuck s ∨ CleanPass (cleanFrame s) s.minAddr.toNat s.maxAddr.toNat (cursorOf s)
  unknownType : s.err = .unknownRecordType → s.bufGranted = false

theorem tracked_acceptDecode {s : State} (v : Variant) (ic : Bool) (hmoves : s.host.moves = []) :
    Tracked (acceptDecode v ic s) where
  noMoves := hmoves
  sound := inv_acceptDecode v ic s
  call := rfl
  scanPass := fun _ => .inr fun _ _ _ _ hclean => hclean
  allocation := nofun
  decodePass := nofun
  unknownType := nofun

/-- A scan pass that goes on: the line just met fits, so a clean rest makes the pass clean from before it on. -/
theorem scanPass_next {s t : State} (h : Tracked s) (hscan : s.phase = .scan) (hstep : lineStep s = .next t)
    (heff : LineEffect (afterRead s) t) (hframe : cleanFrame t = cleanFrame s) :
    Stuck t ∨ ∀ lo hi, lo ≤ t.minAddr.toNat → t.maxAddr.toNat ≤ hi →
      CleanPass (cleanFrame t) lo hi (cursorOf t) → CleanPass (cleanFrame t) lo hi Cursor.start := by
  have hphase : t.phase ≠ .error := by
    have hscan' : t.phase = .scan := heff.phase_eq.trans hscan
    simp [hscan']
  have hline := lineStep_next s t hstep
  refine (stuck_or_settled hstep hphase).imp_right fun ⟨hfree, hclean⟩ lo hi hlo hhi hrest => ?_
  obtain ⟨hmin, hmax⟩ : t.minAddr.toNat ≤ s.minAddr.toNat ∧ s.maxAddr.toNat ≤ t.maxAddr.toNat :=
    bounds_widen (v := afterRead s) heff
  rw [hframe] at hrest ⊢
  refine (h.scanPass hscan).resolve_left hfree lo hi (hlo.trans hmin) (hmax.trans hhi) (.next _ ?fits ?rest)
  case fits =>
    rw [cursorOf_pos, ← hclean]
    exact (fits_of_scan hline hscan hphase).mono hlo hhi
  case rest =>
    rw [cursorOf_pos, ← hclean]
    rw [cursorOf_line hline hphase] at hrest
    exact hrest

/-- The end of the scan pass: the whole pass was clean. -/
theorem scanPass_ended {s : State} (h : Tracked s) (hscan : s.phase = .scan) (hend : EndsPass (frameLine s).1) :
    CleanPass (cleanFrame s) s.minAddr.toNat s.maxAddr.toNat Cursor.start := by
  have hsettled := settled_of_endsPass hend
  have hfree : ¬ Stuck s := fun hstuck => not_settled_of_stuck hstuck hsettled
  rw [frameLine_of_settled hsettled] at hend
  exact (h.scanPass hscan).resolve_left hfree _ _ le_rfl le_rfl (.ended _ hend)

/-- The line that a clean pass meets fits, and the rest of the pass is clean. -/
theorem CleanPass.of_line {s : State} {lo hi : Nat} (h : CleanPass (cleanFrame s) lo hi (cursorOf s))
    (hclean : frameLine s = cleanFrame s s.inPos) (hgo : ¬ EndsPass (frameLine s).1) :
    Fits lo hi (cursorOf (afterRead s)) (frameLine s).1 ∧
      CleanPass (cleanFrame s) lo hi ((cursorOf (afterRead s)).after (frameLine s).1) := by
  cases h with
  | ended _ hend => exact absurd (hclean ▸ hend) hgo
  | next _ hfits hrest =>
    rw [cursorOf_pos, ← hclean] at hfits hrest
    exact ⟨hfits, hrest⟩

/-- A decode pass that goes on stays clean. -/
theorem decodePass_next {s t : State} (h : Tracked s) (hdecode : s.phase = .decode) (hstep : lineStep s = .next t)
    (hgo : ¬ EndsPass (frameLine s).1) (hphase : t.phase ≠ .error) :
    Stuck t ∨ CleanPass (cleanFrame s) s.minAddr.toNat s.maxAddr.toNat (cursorOf t) := by
  refine (stuck_or_settled hstep hphase).imp_right fun ⟨hfree, hclean⟩ => ?_
  have hpass := (h.decodePass hdecode).resolve_left hfree
  rw [cursorOf_line (lineStep_next s t hstep) hphase]
  exact (hpass.of_line hclean hgo).2

/-- Outside ERROR a sound state holds no error. -/
theorem err_of_not_error {s : State} {e : ErrKind} (hsound : Inv s) (hphase : s.phase ≠ .error) (he : e ≠ .none) :
    s.err ≠ e := by
  rw [hsound.call.errInError.mpr hphase]
  exact Ne.symm he

/-- R178: a tracked decode pass meets no reserved type. -/
theorem decodePass_not_unknown {s t : State} (h : Tracked s) (hdecode : s.phase = .decode)
    (hstep : lineStep s = .next t) : t.err ≠ .unknownRecordType := by
  intro herr
  have hnone : s.err ≠ .unknownRecordType := err_of_not_error h.sound (by simp [hdecode]) nofun
  have hbefore : (afterRead s).err ≠ .unknownRecordType := hnone
  obtain ⟨line, i, hf, hdec, hres⟩ := reserved_of_unknownRecordType (lineStep_next s t hstep) hbefore herr
  have hsettled : Settled (frameLine s).1 := hf ▸ ⟨nofun, nofun⟩
  have hgo : ¬ EndsPass (frameLine s).1 := by
    rintro (hend | ⟨line', r, hline, hdec'⟩)
    · simp [hf] at hend
    · obtain rfl : line = line' := Frame.line.inj (hf.symm.trans hline)
      obtain rfl : i = .eof r := Except.ok.inj (hdec.symm.trans hdec')
      simp [Reserved] at hres
  have hpass := (h.decodePass hdecode).resolve_left fun hstuck => not_settled_of_stuck hstuck hsettled
  exact ((hpass.of_line (frameLine_of_settled hsettled) hgo).1 line i hf hdec).1 hres

/-- A step of the block keeps what holds along the call. -/
theorem tracked_blockStep {s t : State} (h : Tracked s) (hstep : blockStep s = .next t) : Tracked t := by
  have hres := blockStep_result hstep
  have hturn := blockTurn_of_no_moves s h.noMoves
  have hown : step s = .next t := (step_of_blockTurn s s hturn).trans hstep
  have hframe : cleanFrame t = cleanFrame s := cleanFrame_congr hres.host_eq hres.longLinePolicy_eq
  have hsound : Inv t := inv_step h.sound hown
  have hmoves : t.host.moves = [] := by rw [hres.host_eq, h.noMoves]
  have hcall : t.call = .decodeCall := hres.call_eq.trans h.call
  have hquiet : t.phase ≠ .error → t.err = .unknownRecordType → t.bufGranted = false :=
    fun hphase herr => absurd herr (err_of_not_error hsound hphase nofun)
  cases hres with
  | stays _ ht => exact ht ▸ h
  | raised e pos he ht =>
    have hphase : t.phase = .error := by rw [ht, raise_phase]
    refine ⟨hmoves, hsound, hcall, by simp [hphase], by simp [hphase], by simp [hphase], fun herr => ?_⟩
    rw [ht, raise_bufGranted]
    by_contra hgranted
    obtain ⟨-, hscan, halloc⟩ := h.sound.call.grantedIn (by simpa using hgranted)
    have hdecode : s.phase = .decode := (he.inCall.resolve_left hscan).resolve_left halloc
    rw [blockStep_of_inPass s (.inr hdecode)] at hstep
    exact decodePass_not_unknown h hdecode hstep herr
  | granted n halloc hn ht =>
    have hphase : t.phase = .decode := by rw [ht, startDecodePass_phase]
    refine ⟨hmoves, hsound, hcall, by simp [hphase], by simp [hphase], fun _ => .inr ?_, hquiet (by simp [hphase])⟩
    rw [hframe, ht]
    exact h.allocation halloc
  | passEnd hpass hf ht =>
    rcases endPass_cases (afterRead s) with ⟨-, hscanCall, -⟩ | ⟨hscan, -, he⟩ | ⟨-, he⟩ | ⟨hnone, hnot, -⟩
    · exact absurd (h.call.symm.trans hscanCall) nofun
    · have hphase : t.phase = .alloc := congrArg State.phase (ht.trans he)
      refine ⟨hmoves, hsound, hcall, by simp [hphase], fun _ => ?_, by simp [hphase], hquiet (by simp [hphase])⟩
      rw [hframe, ht, he]
      exact scanPass_ended h hscan hf
    · have hphase : t.phase = .done := congrArg State.phase (ht.trans he)
      exact ⟨hmoves, hsound, hcall, by simp [hphase], by simp [hphase], by simp [hphase], hquiet (by simp [hphase])⟩
    · exact absurd (h.call.symm.trans (hnone (hpass.resolve_right hnot))) nofun
  | goesOn hpass hgo heff =>
    rw [blockStep_of_inPass s hpass] at hstep
    rcases hpass with hscan | hdecode
    · have hphase : t.phase = .scan := heff.phase_eq.trans hscan
      exact ⟨hmoves, hsound, hcall, fun _ => scanPass_next h hscan hstep heff hframe, by simp [hphase],
        by simp [hphase], hquiet (by simp [hphase])⟩
    · have hphase : t.phase = .decode := heff.phase_eq.trans hdecode
      obtain ⟨hmin, hmax, -⟩ := decodePassKeepsScanResult s s t hturn hdecode hown
      refine ⟨hmoves, hsound, hcall, by simp [hphase], by simp [hphase], fun _ => ?_, hquiet (by simp [hphase])⟩
      rw [hframe, hmin, hmax]
      exact decodePass_next h hdecode hstep hgo.1 (by simp [hphase])

/-- R221: along the whole run of a decode call of a host that issues nothing more. -/
theorem tracked_run {s t : State} {v : Variant} {ic : Bool} {n : Nat} (hmoves : s.host.moves = [])
    (hrun : core.run n (acceptDecode v ic s) = .next t) : Tracked t :=
  run_keeps (fun u _ hu hstep => tracked_blockStep hu
    ((step_of_blockTurn u u (blockTurn_of_no_moves u hu.noMoves)).symm.trans hstep))
    (tracked_acceptDecode v ic hmoves) hrun

/-! ### The obligations -/

/-- Settles O59: what holds along the call says it of its states. -/
theorem unknownTypeOnlyInScanPass : Obligations.UnknownTypeOnlyInScanPass := fun _ _ _ _ _ hmoves hrun =>
  (tracked_run hmoves hrun).unknownType

/-- R212, R221: a record between the bounds of the scan result that does not run past 2^32 lies inside the buffer that
was requested for these bounds. -/
theorem placement_fits {s : State} {size E n : Nat} (hsize : allocSize s = some size) (hlo : s.minAddr.toNat ≤ E)
    (hhi : (E + n + (2 ^ 32 - 1)) % 2 ^ 32 ≤ s.maxAddr.toNat) (hE : E < 2 ^ 32) (hn : E + n ≤ 2 ^ 32 ∨ n = 0) :
    E - s.minAddr.toNat + n ≤ size := by
  by_cases hempty : s.minAddr = 0xFFFFFFFF#32 ∧ s.maxAddr = 0#32
  · obtain rfl : 0 = size := Option.some.inj ((allocSize_of_sentinel hempty).symm.trans hsize)
    rw [hempty.1, BitVec.toNat_ofNat] at hlo ⊢
    rw [hempty.2, BitVec.toNat_ofNat] at hhi
    omega
  · rw [allocSize_of_not_sentinel hempty] at hsize
    split at hsize
    · cases hsize
      omega
    · cases hsize

/-- Settles O60: the line that the decode pass meets is one that fits the scan result, and the buffer has the size that
R212 requests for it. -/
theorem placementFitsWithoutWrap : Obligations.PlacementFitsWithoutWrap := by
  intro s t v ic n line pos r hmoves hrun hdecode hframe hdec hnowrap
  have htracked := tracked_run hmoves hrun
  have hf : (frameLine t).1 = .line line := congrArg Prod.fst hframe
  have hsettled : Settled (frameLine t).1 := hf ▸ ⟨nofun, nofun⟩
  have hgo : ¬ EndsPass (frameLine t).1 := by simp [EndsPass, hf, hdec]
  have hpass := (htracked.decodePass hdecode).resolve_left fun hstuck => not_settled_of_stuck hstuck hsettled
  obtain ⟨hfits, -⟩ := hpass.of_line (frameLine_of_settled hsettled) hgo
  obtain ⟨-, hdata⟩ := hfits line (.data r) hf hdec
  obtain ⟨hlo, hhi⟩ := hdata r rfl
  have hcall := htracked.sound.call
  have hsize := hcall.grantedSize (hcall.grantedFor (.inl hdecode))
  exact ⟨hlo, placement_fits hsize hlo hhi (Nat.mod_lt _ (by decide)) hnowrap⟩

end Sys2Proof.Proofs
end
